-- ==== Sys2Proof/Word.lean ====
section
/-! DEFINITION. The bit-vector widths of the SM3 hash core (spec/00_scope.md R6, R8, R9): words, bytes, command
beats, response beats. All values are unsigned; nothing here is signed. -/

namespace Sys2Proof

/-- A 32-bit word (R6 `WORD_BITS`): state words, working registers, message-schedule words. -/
abbrev Word := BitVec 32

/-- A byte (R9). -/
abbrev Byte := BitVec 8

/-- One beat of the command channel: a 10-bit unit `c[9:0]` with no byte order (30_encoding.md R53). -/
abbrev Beat := BitVec 10

/-- One beat of the response channel: a 9-bit unit `r[8:0]` (30_encoding.md R60). -/
abbrev Response := BitVec 9

/-- The 64-byte block buffer, and one block (R6 `BLOCK_BYTES`; 10_state.md R15). -/
abbrev Block := Vector Byte 64

/-- The running hash value `V[0..7]` (10_state.md R13). -/
abbrev HashValue := Vector Word 8

/-- The message schedule `W[0..67]` (10_state.md R21). -/
abbrev Schedule := Vector Word 68

/-- The derived schedule `W'[0..63]` (10_state.md R21). -/
abbrev Schedule2 := Vector Word 64

end Sys2Proof
end

