-- ==== Sys2Proof/Config.lean ====
section
/-! DEFINITION. The two open parameters of the spec (00_scope.md R7; 92_eei_decisions.md D11, D25). Every other
parameter of R6 is fixed and is hard-coded where it is used. Behind them stand the free values: what the registers hold that
a RESET or the end of a FINAL leaves unspecified (70_reset_and_hazards.md R162). -/

namespace Sys2Proof

/-- `LEN_OVERFLOW_POLICY` (R7, 10_state.md R19): what happens when the absorbed length reaches 2^61 bytes. -/
inductive LenOverflowPolicy where
  /-- The write is outside the specified domain: the model refuses it. -/
  | refuse
  /-- `LEN` counts modulo 2^64 and the bit length is `(LEN * 8) mod 2^64`. -/
  | wrap
deriving DecidableEq, Repr

/-- The open parameters, fixed for the machine and changed by nothing (10_state.md R33: configuration, not state). -/
structure Config where
  /-- `LEN_OVERFLOW_POLICY`. -/
  lenOverflowPolicy : LenOverflowPolicy
  /-- `N_INSTANCES`, a positive integer: how many independent cores exist (60_exceptions.md R153). -/
  nInstances : Nat
deriving DecidableEq, Repr

/-- The defaults of R7: `refuse`, one core. -/
def Config.default : Config := { lenOverflowPolicy := .refuse, nInstances := 1 }

/-! Free values (notes/assumptions/2.md): a constant without a body is a value nothing in Lean can find out. `core` is the
number of the instance, `n` numbers its resets, `k` names the element and `old` is what the element held before the reset, so
that a core that keeps, clears or scrambles it is one reading of the constant. DESIGN CHOICE, unsafe: a free value depends on
these alone, where the spec leaves open what it depends on (70_reset_and_hazards.md R162). -/

/-- What byte `k` of `BUF` holds after reset `n` (10_state.md R31; 70_reset_and_hazards.md R162). -/
opaque Config.freeByte (core n k : Nat) (old : Byte) : Byte

/-- What the transient word number `k` (`W`, `W'`, `A` to `H`, `SS1` to `TT2`) holds after reset `n` (R31, R162). -/
opaque Config.freeWord (core n k : Nat) (old : Word) : Word

/-- What the round counter `j` holds after reset `n` (R31, R162). -/
opaque Config.freeRound (core n : Nat) (old : BitVec 6) : BitVec 6

/-- What the latched bit length `L` holds after reset `n` (R31, R162). -/
opaque Config.freeLength (core n : Nat) (old : BitVec 64) : BitVec 64

end Sys2Proof
end

