-- ==== Sys2Proof/Syntax.lean ====
section
/-! DEFINITION. The syntax: the three commands of spec/opcode_table.json (30_encoding.md R56 to R58), and the
pseudo-commands and the alias that expand to them (R66, R67), which have no encoding of their own. -/

namespace Sys2Proof

/-- The commands a beat can carry, one constructor per row of the opcode table. -/
inductive Instr where
  /-- `WBYTE b` (R56, 41_commands_reset_write.md R97): absorb one message byte. -/
  | wbyte (b : Byte)
  /-- `RESET` (R57, 41_commands_reset_write.md R93). -/
  | reset
  /-- `FINAL`, also spelled `SUM` (R58, 42_finalize_padding_serialization.md R107). -/
  | final
deriving DecidableEq, Repr

/-- A line of the command syntax of R66: a command, the alias `SUM`, or one of the pseudo-commands `WRITE`, `DIGEST`. -/
inductive CommandLine where
  | reset
  | wbyte (b : Byte)
  /-- `WRITE s` (R63, R67 (a)). -/
  | write (data : List Byte)
  | final
  /-- `SUM`, the alias of `FINAL` (R67 (c)). -/
  | sum
  /-- `DIGEST s` (R67 (b), 41_commands_reset_write.md R101). -/
  | digest (data : List Byte)
deriving DecidableEq, Repr

end Sys2Proof
end

