-- ==== Sys2Proof/WellFormed.lean ====
section
/-! DEFINITION. What is well formed: which beats are defined (30_encoding.md R56 to R59), which commands are (all of
them: every operand value is legal), and which configurations are (00_scope.md R7). -/

namespace Sys2Proof

/-- `OP = c[9:8]` of a beat (30_encoding.md R54). -/
def Beat.op (c : Beat) : BitVec 2 := c.extractLsb' 8 2

/-- `ARG = c[7:0]` of a beat (30_encoding.md R54). -/
def Beat.arg (c : Beat) : Byte := c.extractLsb' 0 8

/-- A beat the host may issue: `OP = 00` with any `ARG`, or `OP = 01` or `10` with `ARG = 0x00` (R56 to R58).
The other 766 beats are reserved (R59). -/
def Beat.wellFormed (c : Beat) : Bool :=
  c.op = 0b00#2 || (c.op = 0b01#2 && c.arg = 0x00#8) || (c.op = 0b10#2 && c.arg = 0x00#8)

/-- Every command is well formed: all 256 values of the one operand are legal (R56), and `RESET` and `FINAL` have
no operand (R55). -/
def Instr.wellFormed : Instr → Bool
  | .wbyte _ => true
  | .reset => true
  | .final => true

/-- `N_INSTANCES` is a positive integer (00_scope.md R7). -/
def Config.wellFormed (c : Config) : Bool := 0 < c.nInstances

end Sys2Proof
end

