-- ==== Sys2Proof/Decode.lean ====
section
/-! DEFINITION. Decoding and encoding of command beats (30_encoding.md sections 1 and 2, R64): the decoder is total
on 10-bit values and rejects a reserved beat by name; the encoder is its partial inverse. -/

namespace Sys2Proof

/-- Why the decoder gives no command. -/
inductive DecodeError where
  /-- The beat is one of the 766 reserved ones (R59); it is neither a no-op nor an alias of a command. -/
  | reserved (c : Beat)
deriving DecidableEq, Repr

/-- The decoder of R64, written from its own sentence. -/
def decode (c : Beat) : Except DecodeError Instr :=
  if c.op = 0b00#2 then .ok (.wbyte c.arg)
  else if c = 0x100#10 then .ok .reset
  else if c = 0x200#10 then .ok .final
  else .error (.reserved c)

/-- The encoder of R64: `0x000 + b`, `0x100`, `0x200`. -/
def encode : Instr → Beat
  | .wbyte b => 0b00#2 ++ b
  | .reset => 0b01#2 ++ 0x00#8
  | .final => 0b10#2 ++ 0x00#8

/-- A row of the opcode table (spec/opcode_table.json): it covers the beats `c` with `c &&& mask = pattern`. -/
structure OpcodeRow where
  mnemonic : String
  mask : Beat
  pattern : Beat
deriving DecidableEq, Repr

/-- The three rows of the table, in its order (R56, R57, R58). -/
def opcodeTable : List OpcodeRow :=
  [{ mnemonic := "WBYTE", mask := 0x300#10, pattern := 0x000#10 },
   { mnemonic := "RESET", mask := 0x3ff#10, pattern := 0x100#10 },
   { mnemonic := "FINAL", mask := 0x3ff#10, pattern := 0x200#10 }]

/-- Whether a row of the table covers a beat. -/
def OpcodeRow.covers (r : OpcodeRow) (c : Beat) : Bool := c &&& r.mask = r.pattern

/-- Decode a sequence of beats in channel order, stopping at the first reserved one (R53, R59). -/
def decodeAll : List Beat → Except DecodeError (List Instr)
  | [] => .ok []
  | c :: cs =>
    match decode c with
    | .error e => .error e
    | .ok i =>
      match decodeAll cs with
      | .error e => .error e
      | .ok is => .ok (i :: is)

/-- The beats of a sequence of commands, one each, in order (R53). -/
def encodeAll (is : List Instr) : List Beat := is.map encode

/-- The beat whose bits the opcode table numbers as `w`, given in `nbits` bits (every bit above is 0): the channel
carries ten bits (R53), so a number that does not fit ten bits is no beat. -/
def beatOfTableWord (nbits w : Nat) : Option Beat :=
  if w % 2 ^ nbits < 1024 then some (BitVec.ofNat 10 (w % 2 ^ nbits)) else none

/-- The command the decoder reads from the beat that the opcode table numbers as `w`. -/
def decodeTableWord (nbits w : Nat) : Option Instr :=
  match beatOfTableWord nbits w with
  | none => none
  | some c =>
    match decode c with
    | .ok i => some i
    | .error _ => none

end Sys2Proof
end

