-- ==== Sys2Proof/Machine/Constants.lean ====
section
/-! DEFINITION. The wired constants of the core (10_state.md R33; 40_constants_and_word_functions.md R71, R72;
00_scope.md R6): they are values, not state. -/

namespace Sys2Proof.Machine

/-- `IV[0..7]`, the initialization vector (R71). -/
def IV : HashValue :=
  #v[0x7380166f#32, 0x4914b2b9#32, 0x172442d7#32, 0xda8a0600#32,
     0xa96f30bc#32, 0x163138aa#32, 0xe38dee4d#32, 0xb0fb0e4e#32]

/-- `T(j)` of rounds 0 to 15 (R72). -/
def T0 : Word := 0x79cc4519#32

/-- `T(j)` of rounds 16 to 63 (R72). -/
def T1 : Word := 0x7a879d8a#32

/-- `PAD_MARK`, the first padding byte (R6). -/
def padMark : Byte := 0x80#8

/-- `PAD_FILL`, the fill padding byte (R6). -/
def padFill : Byte := 0x00#8

/-- The length in bytes from which the bit length no longer fits 64 bits: 2^61 (10_state.md R19). -/
def lenBound : Nat := 2 ^ 61

end Sys2Proof.Machine
end

