-- ==== Sys2Proof/Machine/State.lean ====
section
/-! DEFINITION. The state of one SM3 hash core as plain data (spec/10_state.md): the architectural registers
(R13 to R20), the transient registers of a command in progress (R21 to R25), the sequencer (R26), the two channels
(30_encoding.md R53, R60) and the length policy the machine is configured with (00_scope.md R7). -/

namespace Sys2Proof.Machine

/-- The phases that issue a PUSH and to which COMPRESS returns (43_compression.md R131). -/
inductive PushPhase where
  /-- `ABSORB`, with the byte of the `WBYTE` in progress. -/
  | absorb (b : Byte)
  | fMark
  | fZero
  /-- `F_LEN`, with its byte index `i` = 0 to 7. -/
  | fLen (i : BitVec 3)
deriving DecidableEq, Repr

/-- `SEQ`, the sequencer (10_state.md R26): the twelve phases. A phase carries what says "which micro-operation comes
next": the byte index `i` of `F_LEN` and `F_SER`, the byte a `WBYTE` is absorbing, and in the `C_` phases the phase
that called PUSH. `pushed` marks a phase whose PUSH COMPRESS has returned from, so that it resumes where it was
(42_finalize_padding_serialization.md R119). -/
inductive Phase where
  | idle
  | absorb (b : Byte) (pushed : Bool)
  | cLoad (caller : PushPhase)
  | cExpand (caller : PushPhase)
  | cRound (caller : PushPhase)
  | cFeed (caller : PushPhase)
  | fLatch
  | fMark (pushed : Bool)
  | fZero (pushed : Bool)
  | fLen (i : BitVec 3) (pushed : Bool)
  | fSer (i : BitVec 5)
  | fReset
deriving DecidableEq, Repr

/-- The eight working registers `A` to `H` (10_state.md R22). -/
structure WorkRegs where
  a : Word
  b : Word
  c : Word
  d : Word
  e : Word
  f : Word
  g : Word
  h : Word
deriving DecidableEq, Repr

/-- The four intermediate values of one round (10_state.md R23). -/
structure MixRegs where
  ss1 : Word
  ss2 : Word
  tt1 : Word
  tt2 : Word
deriving DecidableEq, Repr

/-- What the free values of a core are drawn from; the model's own, no register of the core (notes/assumptions/2.md). -/
structure Draws where
  /-- The number of the core among the instances (60_exceptions.md R153); no command reads it. -/
  core : Nat
  /-- How many resets by RESET or FINAL have drawn free values. -/
  resets : Nat
deriving DecidableEq, Repr

/-- The draws after one more reset. -/
def Draws.next (d : Draws) : Draws := { d with resets := d.resets + 1 }

/-- The state of one core. -/
structure State where
  /-- `V[0..7]`, the running hash value (R13, R14). -/
  v : HashValue
  /-- `BUF[0..63]`, the block buffer; the bytes at and above `BUFLEN` are stale (R15). -/
  buf : Block
  /-- `BUFLEN`, the buffer fill count, 0 to 63 (R16). -/
  bufLen : BitVec 6
  /-- `LEN`, the absorbed-length counter in bytes (R18). -/
  len : BitVec 64
  /-- `W[0..67]`, the message schedule (R21). -/
  w : Schedule
  /-- `W'[0..63]`, the derived schedule (R21). -/
  w' : Schedule2
  /-- `A` to `H` (R22). -/
  work : WorkRegs
  /-- `SS1`, `SS2`, `TT1`, `TT2` of the last round (R23). -/
  mix : MixRegs
  /-- `j`, the round counter (R24). -/
  j : BitVec 6
  /-- `L`, the latched bit length (R25). -/
  l : BitVec 64
  /-- `SEQ`, the sequencer (R26). -/
  seq : Phase
  /-- The beats the host has put on the command channel and the core has not consumed yet, oldest first (R53). -/
  cmd : List Beat
  /-- The response beats the core has produced, oldest first (R60). -/
  rsp : List Response
  /-- `LEN_OVERFLOW_POLICY` of this machine (00_scope.md R7); no step changes it. -/
  policy : LenOverflowPolicy
  /-- Where the free values for what a reset leaves unspecified come from; the model's own field, no register of the core
  (notes/assumptions/2.md). -/
  draws : Draws
deriving DecidableEq, Repr

/-- Why the machine would stop with a fault. The spec names one error kind and says the core never raises it. -/
inductive Fault where
  /-- `AllocationError` (60_exceptions.md R143). Raised by nobody: the core allocates nothing. Safe. -/
  | allocationError
deriving DecidableEq, Repr

/-- Why the machine gives an input no next state (60_exceptions.md R151). -/
inductive Refusal where
  /-- An instruction with no meaning yet. Raised by a refused arm of `exec` only; there is none. Safe. -/
  | notModelled (mnemonic : String)
  /-- A reserved beat (30_encoding.md R59). Raised by `step` when the beat at the head of the command channel decodes
  to no command. Safe: the spec gives the beat no behaviour. -/
  | reservedBeat (c : Beat)
  /-- Under `LEN_OVERFLOW_POLICY = refuse`, a write that would take `LEN` to 2^61 or beyond (10_state.md R19). Raised by
  `WBYTE` and by the command-level `WRITE`. Safe: the spec puts such a write outside the domain. -/
  | lengthOverflow
deriving DecidableEq, Repr

/-- The working registers with every register 0. -/
def WorkRegs.zero : WorkRegs := { a := 0, b := 0, c := 0, d := 0, e := 0, f := 0, g := 0, h := 0 }

/-- The round intermediates with every value 0. -/
def MixRegs.zero : MixRegs := { ss1 := 0, ss2 := 0, tt1 := 0, tt2 := 0 }

/-- A core of configuration `c` right after power-on (10_state.md R31, 70_reset_and_hazards.md R161): `V = IV`,
`BUFLEN = 0`, `LEN = 0`, `SEQ = IDLE`, both channels empty. The registers R31 calls unspecified (`BUF`, `W`, `W'`, `A`
to `H`, `SS1` to `TT2`, `j`, `L`) hold 0. DESIGN CHOICE, unsafe: notes/assumptions/1.md. -/
def State.powerOn (c : Config) : State where
  v := IV
  buf := Vector.replicate 64 0#8
  bufLen := 0
  len := 0
  w := Vector.replicate 68 0#32
  w' := Vector.replicate 64 0#32
  work := WorkRegs.zero
  mix := MixRegs.zero
  j := 0
  l := 0
  seq := .idle
  cmd := []
  rsp := []
  policy := c.lenOverflowPolicy
  draws := { core := 0, resets := 0 }

/-- The machine right after reset, with the default parameters of 00_scope.md R7. -/
def State.reset : State := State.powerOn Config.default

end Sys2Proof.Machine
end

