-- ==== Sys2Proof/Machine/Flags.lean ====
section
/-! DEFINITION. The core has no flags (10_state.md R28). Its only data-dependent control decisions are the comparisons of
counters with constants below (the fourth, `j < 16`, is `firstForm` in WordFns.lean), and the length domain of R19. -/

namespace Sys2Proof.Machine

/-- `BUFLEN = 63`: the next PUSH completes a block (41_commands_reset_write.md R95). -/
def State.bufLast (s : State) : Bool := s.bufLen = 63#6

/-- `BUFLEN = 56`: the length field starts here (42_finalize_padding_serialization.md R109). -/
def State.atLengthField (s : State) : Bool := s.bufLen = 56#6

/-- `j = 63`: the last round (43_compression.md R132). -/
def State.lastRound (s : State) : Bool := s.j = 63#6

/-- Whether a write of `n` bytes is in the specified domain (10_state.md R19): always under `wrap`; under `refuse`, when
`LEN + n < 2^61`. -/
def State.lengthInDomain (s : State) (n : Nat) : Bool :=
  match s.policy with
  | .wrap => true
  | .refuse => s.len.toNat + n < lenBound

end Sys2Proof.Machine
end

