-- ==== Sys2Proof/Machine/Operands.lean ====
section
/-! DEFINITION. Operands and byte order: the big-endian conversions (20_memory.md R34 to R37), the memory primitives on
the block buffer (00_scope.md R10), and the layout of a response beat (30_encoding.md R60). -/

namespace Sys2Proof.Machine

/-- `BE32(w)`: the four bytes of a word, most significant first (20_memory.md R35). -/
def be32 (w : Word) : Vector Byte 4 :=
  #v[w.extractLsb' 24 8, w.extractLsb' 16 8, w.extractLsb' 8 8, w.extractLsb' 0 8]

/-- The inverse of `BE32`: `b0 || b1 || b2 || b3` (20_memory.md R35). -/
def be32Inv (b0 b1 b2 b3 : Byte) : Word := b0 ++ b1 ++ b2 ++ b3

/-- `BE64(v)`: the eight bytes of a 64-bit value, most significant first (20_memory.md R36). -/
def be64 (v : BitVec 64) : Vector Byte 8 :=
  #v[v.extractLsb' 56 8, v.extractLsb' 48 8, v.extractLsb' 40 8, v.extractLsb' 32 8,
     v.extractLsb' 24 8, v.extractLsb' 16 8, v.extractLsb' 8 8, v.extractLsb' 0 8]

/-- `MemRead(addr, n)`: the `n` bytes of the buffer from `addr`, the byte at the lowest index most significant; it
requires `addr + n <= 64` (00_scope.md R10). -/
def memRead (buf : Block) (addr : Nat) : (n : Nat) → addr + n ≤ 64 → BitVec (8 * n)
  | 0, _ => 0#0
  | n + 1, h => memRead buf addr n (by omega) ++ buf[addr + n]

/-- `MemWrite(addr, n, v)`: store the `8n`-bit value `v` to the `n` bytes of the buffer from `addr`, the most
significant byte at `addr`; it requires `addr + n <= 64` (00_scope.md R10). -/
def memWrite (buf : Block) (addr : Nat) : (n : Nat) → BitVec (8 * n) → addr + n ≤ 64 → Block
  | 0, _, _ => buf
  | n + 1, v, h =>
    (memWrite buf addr n (v.extractLsb' 8 (8 * n)) (by omega)).set (addr + n) (v.extractLsb' 0 8)

/-- Message word `i` of a block, big-endian: `MemRead(4i, 4)` (43_compression.md R124). -/
def messageWord (blk : Block) (i : Nat) (h : i < 16) : Word := memRead blk (4 * i) 4 (by omega)

/-- The ACK response beat: `K = 0`, `DATA` the number of bytes accepted (30_encoding.md R60). -/
def ackBeat (n : Byte) : Response := 0#1 ++ n

/-- The DIGEST response beat: `K = 1`, `DATA` one digest byte (30_encoding.md R60, R62). -/
def digestBeat (b : Byte) : Response := 1#1 ++ b

/-- `K = r[8]` of a response beat (30_encoding.md R60). -/
def Response.k (r : Response) : BitVec 1 := r.extractLsb' 8 1

/-- `DATA = r[7:0]` of a response beat (30_encoding.md R60). -/
def Response.data (r : Response) : Byte := r.extractLsb' 0 8

/-- `SERIALIZE(V)`: `BE32(V[0]) ++ ... ++ BE32(V[7])`, so digest byte `4i + k` is byte `k` of `BE32(V[i])`
(20_memory.md R37; 42_finalize_padding_serialization.md R113). -/
def serialize (v : HashValue) : Vector Byte 32 := Vector.ofFn fun n : Fin 32 => (be32 v[n.val / 4])[n.val % 4]

end Sys2Proof.Machine
end

