-- ==== Sys2Proof/Machine/WordFns.lean ====
section
/-! DEFINITION. The 32-bit word functions (40_constants_and_word_functions.md R72 to R81): the word mixer and the adder
trees. `+`, `^^^`, `&&&`, `|||`, `~~~` on `Word` are R76 and R74; the shape of an adder tree is not architectural (R77). -/

namespace Sys2Proof.Machine

/-- `ROTL(x, n)`, left rotation by `n mod 32` (R75). -/
def rotl (x : Word) (n : Nat) : Word := x.rotateLeft (n % 32)

/-- The rounds that use the first forms of `T`, `FF` and `GG`: 0 to 15 (43_compression.md R129). -/
def firstForm (j : BitVec 6) : Bool := j.toNat ≤ 15

/-- `T(j)`, the round constant (R72). -/
def T (j : BitVec 6) : Word := if firstForm j then T0 else T1

/-- `TR(j) = T(j) <<< (j mod 32)`, the rotated round constant (R73). -/
def TR (j : BitVec 6) : Word := rotl (T j) (j.toNat % 32)

/-- `P0` (R78). -/
def P0 (x : Word) : Word := x ^^^ rotl x 9 ^^^ rotl x 17

/-- `P1` (R79). -/
def P1 (x : Word) : Word := x ^^^ rotl x 15 ^^^ rotl x 23

/-- `FF(j, x, y, z)`: parity in rounds 0 to 15, majority from round 16 (R80). -/
def FF (j : BitVec 6) (x y z : Word) : Word :=
  if firstForm j then x ^^^ y ^^^ z else (x &&& y) ||| (x &&& z) ||| (y &&& z)

/-- `GG(j, x, y, z)`: parity in rounds 0 to 15, choice from round 16 (R81). -/
def GG (j : BitVec 6) (x y z : Word) : Word :=
  if firstForm j then x ^^^ y ^^^ z else (x &&& y) ||| (~~~x &&& z)

/-- The three-operand adder tree (R77). -/
def add3 (x y z : Word) : Word := x + y + z

/-- The four-operand adder tree (R77). -/
def add4 (x y z t : Word) : Word := x + y + z + t

end Sys2Proof.Machine
end

