-- ==== Sys2Proof/Machine/Ops.lean ====
section
/-! DEFINITION. The named operations on the registers and the channels: each writes only what its rule says. There is no
operation that takes an exception or returns from one: the core has no exception, no vector, nothing to save and no
trap return (60_exceptions.md R143 to R150). -/

namespace Sys2Proof.Machine

/-- `SEQ <- phase` (00_scope.md R11). -/
def State.goto (s : State) (p : Phase) : State := { s with seq := p }

/-- `emit`: append a beat to the response channel (30_encoding.md R60). -/
def State.emit (s : State) (r : Response) : State := { s with rsp := s.rsp ++ [r] }

/-- The host puts beats on the command channel behind those already there (30_encoding.md R53). -/
def State.deliver (s : State) (cs : List Beat) : State := { s with cmd := s.cmd ++ cs }

/-- Consume the beat at the head of the command channel (30_encoding.md R53: in order, each exactly once). -/
def State.dropBeat (s : State) : State := { s with cmd := s.cmd.tail }

/-- The beat at the head of the command channel, where there is one. -/
def State.headBeat (s : State) : Option Beat := s.cmd.head?

/-- `LEN <- LEN + 1`, counting one absorbed byte (40_constants_and_word_functions.md R82 (a)). -/
def State.countByte (s : State) : State := { s with len := s.len + 1 }

/-- The bit length `LEN * 8`, that is `LEN[60:0] || 000` (40_constants_and_word_functions.md R82 (b)). -/
def bitLength (len : BitVec 64) : BitVec 64 := len <<< 3

/-- `L <- LEN * 8` (42_finalize_padding_serialization.md R108). -/
def State.latchLength (s : State) : State := { s with l := bitLength s.len }

/-- `MemWrite(BUFLEN, 1, b)`: store a byte at the fill position (41_commands_reset_write.md R95). -/
def State.storeByte (s : State) (b : Byte) : State :=
  { s with buf := memWrite s.buf s.bufLen.toNat 1 b (by have := s.bufLen.isLt; omega) }

/-- `BUFLEN <- n` (41_commands_reset_write.md R95). -/
def State.setBufLen (s : State) (n : BitVec 6) : State := { s with bufLen := n }

/-- Free contents of `BUF` after a reset, `old` those before it (10_state.md R31; 70_reset_and_hazards.md R162). -/
@[irreducible] def freeBlock (d : Draws) (old : Block) : Block :=
  Vector.ofFn fun k : Fin 64 => Config.freeByte d.core d.resets k.val old[k.val]

/-- Free contents of `W` after a reset (R31, R162). -/
@[irreducible] def freeSchedule (d : Draws) (old : Schedule) : Schedule :=
  Vector.ofFn fun k : Fin 68 => Config.freeWord d.core d.resets k.val old[k.val]

/-- Free contents of `W'` after a reset (R31, R162). -/
@[irreducible] def freeSchedule2 (d : Draws) (old : Schedule2) : Schedule2 :=
  Vector.ofFn fun k : Fin 64 => Config.freeWord d.core d.resets (68 + k.val) old[k.val]

/-- Free contents of `A` to `H` after a reset (R31, R162). -/
@[irreducible] def freeWork (d : Draws) (old : WorkRegs) : WorkRegs :=
  let free := Config.freeWord d.core d.resets
  { a := free 132 old.a, b := free 133 old.b, c := free 134 old.c, d := free 135 old.d,
    e := free 136 old.e, f := free 137 old.f, g := free 138 old.g, h := free 139 old.h }

/-- Free contents of `SS1`, `SS2`, `TT1`, `TT2` after a reset (R31, R162). -/
@[irreducible] def freeMix (d : Draws) (old : MixRegs) : MixRegs :=
  let free := Config.freeWord d.core d.resets
  { ss1 := free 140 old.ss1, ss2 := free 141 old.ss2, tt1 := free 142 old.tt1, tt2 := free 143 old.tt2 }

/-- What a reset leaves unspecified (10_state.md R31; 70_reset_and_hazards.md R162): `BUF` and the transient registers hold
free values. What those may depend on the spec leaves open, and here the model chooses: each element's free value is a
function of the core's number, of how many resets have been drawn, of the element and of what the element itself held before,
and of nothing else. So it is provably independent of every other register, and equal in two runs of a core, or two pasts,
that agree on those. DESIGN CHOICE, unsafe: notes/assumptions/2.md. -/
def State.unspecify (s : State) : State := { s with
  buf := freeBlock s.draws s.buf
  w := freeSchedule s.draws s.w
  w' := freeSchedule2 s.draws s.w'
  work := freeWork s.draws s.work
  mix := freeMix s.draws s.mix
  j := Config.freeRound s.draws.core s.draws.resets s.j
  l := Config.freeLength s.draws.core s.draws.resets s.l
  draws := s.draws.next }

/-- `V <- IV`, `BUFLEN <- 0`, `LEN <- 0` (41_commands_reset_write.md R93; 42_finalize_padding_serialization.md R114). -/
def State.clear (s : State) : State := { s with v := IV, bufLen := 0, len := 0 }

/-- The reset shared by RESET and the end of FINAL (R93, R114): the three assignments; what R162 leaves unspecified after any
reset is free. -/
def State.toInitial (s : State) : State := s.unspecify.clear

end Sys2Proof.Machine
end

