-- ==== Sys2Proof/Machine/Compress.lean ====
section
/-! DEFINITION. The compression function as micro-operations on the registers (43_compression.md R123 to R130). -/

namespace Sys2Proof.Machine

/-- The schedule with `W[0..15]` from a block; the other words stay (R124). -/
def loadWords (w : Schedule) (blk : Block) : Schedule :=
  Vector.ofFn fun k : Fin 68 => if h : k.val < 16 then messageWord blk k.val h else w[k.val]

/-- `LOADW` of the block in the buffer (R124). -/
def State.loadw (s : State) : State := { s with w := loadWords s.w s.buf }

/-- The expansion recurrence for `W[j]`, `j` = 16 to 67 (R125). -/
def expandWord (w : Schedule) (j : Nat) (h : 16 ≤ j ∧ j < 68) : Word :=
  P1 (w[j - 16] ^^^ w[j - 9] ^^^ rotl w[j - 3] 15) ^^^ rotl w[j - 13] 7 ^^^ w[j - 6]

/-- The first `n` steps of the expansion, in increasing order of `j` from 16 (R125). -/
def expandSteps (w : Schedule) : (n : Nat) → n ≤ 52 → Schedule
  | 0, _ => w
  | n + 1, h =>
    let prev := expandSteps w n (by omega)
    prev.set (16 + n) (expandWord prev (16 + n) (by omega))

/-- `W[16..67]` (R125). -/
def expandW (w : Schedule) : Schedule := expandSteps w 52 (by omega)

/-- `W'[j] = W[j] ^ W[j+4]`, `j` = 0 to 63 (R126). -/
def deriveW' (w : Schedule) : Schedule2 := Vector.ofFn fun j : Fin 64 => w[j.val] ^^^ w[j.val + 4]

/-- `EXPAND`: `W[16..67]`, then `W'[0..63]` (R125, R126). -/
def State.expand (s : State) : State := { s with w := expandW s.w, w' := deriveW' (expandW s.w) }

/-- The working registers as copies of `V[0..7]` (R127). -/
def loadWork (v : HashValue) : WorkRegs :=
  { a := v[0], b := v[1], c := v[2], d := v[3], e := v[4], f := v[5], g := v[6], h := v[7] }

/-- `INIT`: `A..H <- V[0..7]`, `j <- 0` (R127). -/
def State.initWork (s : State) : State := { s with work := loadWork s.v, j := 0 }

/-- `SS1`, `SS2`, `TT1`, `TT2` of round `j` (R128). -/
def roundMix (r : WorkRegs) (j : BitVec 6) (wj wj' : Word) : MixRegs :=
  let ss1 := rotl (add3 (rotl r.a 12) r.e (TR j)) 7
  let ss2 := ss1 ^^^ rotl r.a 12
  { ss1 := ss1
    ss2 := ss2
    tt1 := add4 (FF j r.a r.b r.c) r.d ss2 wj'
    tt2 := add4 (GG j r.e r.f r.g) r.h ss1 wj }

/-- The parallel update of `A` to `H` at the end of a round (R128). -/
def roundShift (r : WorkRegs) (m : MixRegs) : WorkRegs :=
  { a := m.tt1, b := r.a, c := rotl r.b 9, d := r.c, e := P0 m.tt2, f := r.e, g := rotl r.f 19, h := r.g }

/-- `ROUND(j)` on the registers, `j` the round counter (R128). -/
def State.round (s : State) : State :=
  let m := roundMix s.work s.j (s.w[s.j.toNat]'(by have := s.j.isLt; omega)) s.w'[s.j.toNat]
  { s with mix := m, work := roundShift s.work m }

/-- `j <- j + 1` between two rounds (R132). -/
def State.nextRound (s : State) : State := { s with j := s.j + 1 }

/-- `n` rounds with the counter moving on, then one more that leaves it (R132: the counter is not moved on after the
last round). -/
def State.rounds : Nat → State → State
  | 0, s => s.round
  | n + 1, s => State.rounds n s.round.nextRound

/-- `V ^ (A..H)`, word by word (R130). -/
def feedForward (v : HashValue) (r : WorkRegs) : HashValue :=
  #v[v[0] ^^^ r.a, v[1] ^^^ r.b, v[2] ^^^ r.c, v[3] ^^^ r.d, v[4] ^^^ r.e, v[5] ^^^ r.f, v[6] ^^^ r.g, v[7] ^^^ r.h]

/-- `FEEDFWD`: `V <- V ^ (A..H)` (R130). -/
def State.feedfwd (s : State) : State := { s with v := feedForward s.v s.work }

/-- `COMPRESS(BUF[0..63])` (R123): LOADW, EXPAND, INIT, ROUND 0 to 63, FEEDFWD. -/
def State.compress (s : State) : State := (State.rounds 63 s.loadw.expand.initWork).feedfwd

end Sys2Proof.Machine
end

