-- ==== Sys2Proof/Machine/Buffer.lean ====
section
/-! DEFINITION. The buffer datapath: PUSH, the single path by which message and padding bytes enter the buffer
(41_commands_reset_write.md R95; 42_finalize_padding_serialization.md R112). -/

namespace Sys2Proof.Machine

/-- `PUSH(b)` (R95): store the byte; if it completes a block, COMPRESS and empty the buffer, else count it. -/
def State.push (s : State) (b : Byte) : State :=
  if s.bufLast then (s.storeByte b).compress.setBufLen 0 else (s.storeByte b).setBufLen (s.bufLen + 1)

/-- Push bytes in order. -/
def State.pushAll : State → List Byte → State
  | s, [] => s
  | s, b :: bs => (s.push b).pushAll bs

end Sys2Proof.Machine
end

