-- ==== Sys2Proof/Machine/Absorb.lean ====
section
/-! DEFINITION. The commands RESET and WBYTE (41_commands_reset_write.md R93, R97). Each runs as one indivisible action
(20_memory.md R42) and leaves the sequencer in IDLE (R94). -/

namespace Sys2Proof.Machine

/-- `RESET` (R93): the reset assignment, no response. -/
def execReset (s : State) : Host.Outcome State Fault Refusal := .next (s.toInitial.goto .idle)

/-- The effect of `WBYTE b` inside the length domain (R97): count the byte, push it, acknowledge it. -/
def State.absorb (s : State) (b : Byte) : State := ((s.countByte.push b).emit (ackBeat 1)).goto .idle

/-- `WBYTE b` (R97). Under `LEN_OVERFLOW_POLICY = refuse` its precondition is `LEN + 1 < 2^61` (10_state.md R19), and
outside it the spec gives the write no meaning. -/
def execWbyte (b : Byte) (s : State) : Host.Outcome State Fault Refusal :=
  if s.lengthInDomain 1 then .next (s.absorb b) else .refused .lengthOverflow

end Sys2Proof.Machine
end

