-- ==== Sys2Proof/Machine/Finalize.lean ====
section
/-! DEFINITION. The command FINAL: the padding pipeline, the serialization pipeline and the automatic reset
(42_finalize_padding_serialization.md R107 to R115). -/

namespace Sys2Proof.Machine

/-- `while BUFLEN != 56: PUSH(0x00)` (R109 (b)), at most `n` times; 63 are always enough (R120). -/
def State.zeroFill : Nat → State → State
  | 0, s => s
  | n + 1, s => if s.atLengthField then s else State.zeroFill n (s.push padFill)

/-- The padding (R109): the mark, the fill bytes, the eight bytes of the latched bit length. -/
def State.padMessage (s : State) : State := ((s.push padMark).zeroFill 63).pushAll (be64 s.l).toList

/-- Emit the digest, bytes 0 to 31 in order (R113; 30_encoding.md R62). -/
def State.emitDigest (s : State) : State := { s with rsp := s.rsp ++ (serialize s.v).toList.map digestBeat }

/-- `FINAL` (R107): latch the bit length, pad and compress, emit the digest, reset. It cannot fail (R116). -/
def execFinal (s : State) : Host.Outcome State Fault Refusal :=
  .next (s.latchLength.padMessage.emitDigest.toInitial.goto .idle)

end Sys2Proof.Machine
end

