-- ==== Sys2Proof/Machine/Dispatch.lean ====
section
/-! DEFINITION. The meaning of every command, one arm per constructor of `Instr`. -/

namespace Sys2Proof.Machine

def exec (i : Instr) (s : State) : Host.Outcome State Fault Refusal :=
  match i with
  | .wbyte b => Sys2Proof.Machine.execWbyte b s
  | .reset => Sys2Proof.Machine.execReset s
  | .final => Sys2Proof.Machine.execFinal s

end Sys2Proof.Machine
end

