-- ==== Sys2Proof/Machine/Sequencer.lean ====
section
/-! DEFINITION. The sequencer, one row of the transition tables at a time (42_finalize_padding_serialization.md R119;
43_compression.md R131, R132): the same commands as `exec`, cut into micro-steps. Only the order of the
micro-operations and their net effect are normative (10_state.md R26); how many micro-steps a row takes is open
(93_implementation_defined.md U12), and where the tables leave it so the model chooses: notes/assumptions/6.md. -/

namespace Sys2Proof.Machine

/-- The phase COMPRESS returns to: its caller's, at the point where the PUSH has returned (R131). DESIGN CHOICE: resuming it
is a micro-step of its own (notes/assumptions/6.md). -/
def PushPhase.resume : PushPhase → Phase
  | .absorb b => .absorb b true
  | .fMark => .fMark true
  | .fZero => .fZero true
  | .fLen i => .fLen i true

/-- The phase after byte `i` of the length field has been pushed (R119). -/
def afterLengthByte (i : BitVec 3) : Phase := if i = 7#3 then .fSer 0 else .fLen (i + 1) false

/-- The phase after digest byte `i` has been emitted (R119). -/
def afterDigestByte (i : BitVec 5) : Phase := if i = 31#5 then .fReset else .fSer (i + 1)

/-- A row whose micro-operation is `PUSH(b)`: store the byte; a full buffer calls the `C_` phases, else the fill count
moves on and the row ends in `next` (R119, R132; 41_commands_reset_write.md R95). DESIGN CHOICE, safe: the store and R132's
first row (caller phase to `C_LOAD`, no micro-operation) are one micro-step together (notes/assumptions/6.md). -/
def State.pushRow (s : State) (b : Byte) (caller : PushPhase) (next : Phase) : State :=
  if s.bufLast then (s.storeByte b).goto (.cLoad caller)
  else ((s.storeByte b).setBufLen (s.bufLen + 1)).goto next

/-- The end of a `WBYTE`: acknowledge, back to IDLE (41_commands_reset_write.md R97). After a COMPRESS it is a micro-step of
its own, else part of the `ABSORB` row. DESIGN CHOICE, safe: notes/assumptions/6.md. -/
def State.acknowledge (s : State) : State := (s.emit (ackBeat 1)).goto .idle

/-- The `ABSORB` row: count the byte and push it, by the pseudocode of 41_commands_reset_write.md R97. No table of the spec
has a row for `ABSORB`. DESIGN CHOICE, safe: counting, storing and, with a full buffer, R132's first row, else the
acknowledgement, are one micro-step (notes/assumptions/6.md). -/
def State.absorbRow (s : State) (b : Byte) : State :=
  if s.bufLast then (s.countByte.storeByte b).goto (.cLoad (.absorb b))
  else ((s.countByte.storeByte b).setBufLen (s.bufLen + 1)).acknowledge

/-- The `F_ZERO` rows (R119). -/
def State.fillRow (s : State) : State :=
  if s.atLengthField then s.goto (.fLen 0 false) else s.pushRow padFill .fZero (.fZero false)

/-- The `C_ROUND` rows (R132). -/
def State.roundRow (s : State) (caller : PushPhase) : State :=
  if s.lastRound then s.round.goto (.cFeed caller) else s.round.nextRound.goto (.cRound caller)

/-- One micro-step: the row of the present phase. In IDLE nothing happens by itself (60_exceptions.md R157). -/
def State.micro (s : State) : State :=
  match s.seq with
  | .idle => s
  | .absorb b false => s.absorbRow b
  | .absorb _ true => s.acknowledge
  | .cLoad caller => s.loadw.goto (.cExpand caller)
  | .cExpand caller => s.expand.initWork.goto (.cRound caller)
  | .cRound caller => s.roundRow caller
  | .cFeed caller => (s.feedfwd.setBufLen 0).goto caller.resume
  | .fLatch => s.latchLength.goto (.fMark false)
  | .fMark false => s.pushRow padMark .fMark (.fZero false)
  | .fMark true => s.goto (.fZero false)
  | .fZero false => s.fillRow
  | .fZero true => s.goto (.fZero false)
  | .fLen i false => s.pushRow ((be64 s.l)[i.toNat]) (.fLen i) (afterLengthByte i)
  | .fLen i true => s.goto (afterLengthByte i)
  | .fSer i => (s.emit (digestBeat ((serialize s.v)[i.toNat]))).goto (afterDigestByte i)
  | .fReset => s.toInitial.goto .idle

/-- `n` micro-steps. -/
def State.microSteps : Nat → State → State
  | 0, s => s
  | n + 1, s => State.microSteps n s.micro

/-- The IDLE row: a beat has been consumed and decoded, and its command begins (R119; 41_commands_reset_write.md R93,
R97). RESET is a single assignment and ends in this row, with no phase of its own (DESIGN CHOICE, safe:
notes/assumptions/6.md); a WBYTE outside the length domain has no meaning (10_state.md R19). -/
def State.accept (s : State) : Instr → Host.Outcome State Fault Refusal
  | .wbyte b => if s.lengthInDomain 1 then .next (s.goto (.absorb b false)) else .refused .lengthOverflow
  | .reset => .next (s.toInitial.goto .idle)
  | .final => .next (s.goto .fLatch)

end Sys2Proof.Machine
end

