-- ==== Sys2Proof/Machine/Step.lean ====
section
/-! DEFINITION. One step of the machine. The core takes a beat only in IDLE and finishes everything the beat causes before
it takes the next (30_encoding.md R53; 20_memory.md R42, R47), so in IDLE a step is one beat. -/

namespace Sys2Proof.Machine

/-- One step. In IDLE: with no beat on the channel the core waits and keeps its state (60_exceptions.md R157); else it
consumes the beat at the head and runs its command, or the beat is reserved and the step is refused (30_encoding.md R59).
In a state whose sequencer stands inside a command, a step is one micro-step of it (no step from IDLE ends there). -/
def step (s : State) : Host.Outcome State Fault Refusal :=
  match s.seq with
  | .idle =>
    match s.headBeat with
    | none => .next s
    | some c =>
      match decode c with
      | .ok i => exec i s.dropBeat
      | .error (.reserved r) => .refused (.reservedBeat r)
  | _ => .next s.micro

/-- `s` with the beat that the opcode table numbers as `w` at the head of the command channel and the sequencer in IDLE,
where a beat is consumed (30_encoding.md R53). -/
def State.withFetchWord (s : State) (nbits w : Nat) : State :=
  { s with seq := .idle, cmd := BitVec.ofNat 10 (w % 2 ^ nbits) :: s.cmd }

end Sys2Proof.Machine
end

