-- ==== Sys2Proof/Machine/Sm3.lean ====
section
/-! DEFINITION. The core's behaviour as pure functions of bytes and words: the compression function (43_compression.md
R133), padding as a byte string (42_finalize_padding_serialization.md R111) and the digest of a message (R118). -/

namespace Sys2Proof.Machine

/-- `W[0..67]` of a block (43_compression.md R124, R125). -/
def scheduleOf (blk : Block) : Schedule := expandW (loadWords (Vector.replicate 68 0#32) blk)

/-- `A` to `H` after the first `n` rounds, from `V` and the schedule (43_compression.md R127, R128). -/
def workAfter (v : HashValue) (w : Schedule) (w' : Schedule2) : (n : Nat) → n ≤ 64 → WorkRegs
  | 0, _ => loadWork v
  | n + 1, h =>
    let r := workAfter v w w' n (by omega)
    roundShift r (roundMix r (BitVec.ofNat 6 n) w[n] w'[n])

/-- `CF(V, Blk)` (43_compression.md R133). -/
def CF (v : HashValue) (blk : Block) : HashValue :=
  feedForward v (workAfter v (scheduleOf blk) (deriveW' (scheduleOf blk)) 64 (by omega))

/-- Block number `i` of a byte string, `M[64i .. 64i+63]` (42_finalize_padding_serialization.md R118). It is used where
the string has all 64 bytes; a byte past the end would read as 0. -/
def blockOf (m : List Byte) (i : Nat) : Block := Vector.ofFn fun k : Fin 64 => m.getD (64 * i + k.val) 0#8

/-- `V_n`: `CF` applied, from `v`, to the first `n` blocks of `m` in order (R118). -/
def hashBlocks (v : HashValue) (m : List Byte) : Nat → HashValue
  | 0 => v
  | n + 1 => CF (hashBlocks v m n) (blockOf m n)

/-- The number of fill bytes of the padding, `(55 - n) mod 64` for `n` = 0 to 63 (R110). -/
def padFillCount (n : Nat) : Nat := (119 - n) % 64

/-- `PAD(n, L)` (R111). -/
def pad (n : Nat) (l : BitVec 64) : List Byte :=
  [padMark] ++ List.replicate (padFillCount n) padFill ++ (be64 l).toList

/-- The padded message `m ++ PAD(len(m) mod 64, len(m) * 8)` (R111). -/
def padded (m : List Byte) : List Byte := m ++ pad (m.length % 64) (BitVec.ofNat 64 (m.length * 8))

/-- `SM3(m)` (R118), for messages of fewer than 2^61 bytes. -/
def sm3 (m : List Byte) : Vector Byte 32 := serialize (hashBlocks IV (padded m) ((padded m).length / 64))

end Sys2Proof.Machine
end

