-- ==== Sys2Proof/Machine/Run.lean ====
section
/-! DEFINITION. The command level (30_encoding.md R63, R67, R69): WRITE and DIGEST as functions on the state, the
expansions of the pseudo-commands, and runs of several commands (70_reset_and_hazards.md R174). -/

namespace Sys2Proof.Machine

/-- Go on with `f` where the outcome is a next state; a fault or a refusal stays (60_exceptions.md R151: a refusal is
kept for the rest of the run). -/
def andThen {α β : Type} (o : Host.Outcome α Fault Refusal) (f : α → Host.Outcome β Fault Refusal) :
    Host.Outcome β Fault Refusal :=
  match o with
  | .next a => f a
  | .fault r => .fault r
  | .refused r => .refused r

/-- Run commands in issue order (20_memory.md R47). -/
def runAll : List Instr → State → Host.Outcome State Fault Refusal
  | [], s => .next s
  | i :: is, s => andThen (exec i s) (runAll is)

/-- `n` steps of the machine. -/
def stepN : Nat → State → Host.Outcome State Fault Refusal
  | 0, s => .next s
  | n + 1, s => andThen (step s) (stepN n)

/-- Deliver beats on the command channel and step once per beat (70_reset_and_hazards.md R174). -/
def runBeats (cs : List Beat) (s : State) : Host.Outcome State Fault Refusal := stepN cs.length (s.deliver cs)

/-- The loop of the command-level WRITE: count and push each byte, in order (41_commands_reset_write.md R96). -/
def State.absorbAll : State → List Byte → State
  | s, [] => s
  | s, b :: bs => (s.countByte.push b).absorbAll bs

/-- `WRITE(data)` at the command level, with its result `ACCEPTED` (41_commands_reset_write.md R96, R102). The empty
write is always legal (R98); another one is in the domain when `LEN + len(data) < 2^61` or the policy is `wrap`
(10_state.md R19). It answers with no response beats: those belong to the beat level (30_encoding.md R61). -/
def execWrite (data : List Byte) (s : State) : Host.Outcome (State × Nat) Fault Refusal :=
  if data.isEmpty || s.lengthInDomain data.length then .next ((s.absorbAll data).goto .idle, data.length)
  else .refused .lengthOverflow

/-- Several WRITEs in a row: a message given in chunks (41_commands_reset_write.md R99). -/
def execWrites : List (List Byte) → State → Host.Outcome State Fault Refusal
  | [], s => .next s
  | d :: ds, s => andThen (execWrite d s) fun r => execWrites ds r.1

/-- `DIGEST(data)` at the command level: RESET, WRITE, FINAL (41_commands_reset_write.md R101). -/
def execDigest (data : List Byte) (s : State) : Host.Outcome State Fault Refusal :=
  andThen (execReset s) fun s1 => andThen (execWrite data s1) fun r => execFinal r.1

/-- The commands a line of the syntax stands for (30_encoding.md R67). -/
def expandLine : CommandLine → List Instr
  | .reset => [.reset]
  | .wbyte b => [.wbyte b]
  | .write data => data.map .wbyte
  | .final => [.final]
  | .sum => [.final]
  | .digest data => .reset :: data.map .wbyte ++ [.final]

/-- The beats of a line of the syntax (30_encoding.md R63, R70). -/
def lineBeats (c : CommandLine) : List Beat := encodeAll (expandLine c)

/-- `BUF[0..BUFLEN-1]`, the pending bytes in arrival order (10_state.md R15). -/
def State.pending (s : State) : List Byte := s.buf.toList.take s.bufLen.toNat

/-- The sum of the `DATA` fields of response beats, the `ACCEPTED` of a burst of ACKs (30_encoding.md R61). -/
def dataSum : List Response → Nat
  | [] => 0
  | r :: rs => (Response.data r).toNat + dataSum rs

end Sys2Proof.Machine
end

