-- ==== Sys2Proof/Machine/System.lean ====
section
/-! DEFINITION. Several cores (60_exceptions.md R153; 00_scope.md R7 `N_INSTANCES`): the product of independent
instances, each with its own state and channels. DESIGN CHOICE: a refused instance stays refused and the others go on
(notes/assumptions/9.md). -/

namespace Sys2Proof.Machine

/-- The outcome reached by each of `n` instances. -/
abbrev System (n : Nat) := Vector (Host.Outcome State Fault Refusal) n

/-- A state as that of core number `k`: the number enters free values only (notes/assumptions/2.md). -/
def State.asCore (s : State) (k : Nat) : State := { s with draws := { s.draws with core := k } }

/-- Every instance right after power-on (60_exceptions.md R153). -/
def System.powerOn (c : Config) : System c.nInstances :=
  Vector.ofFn fun k : Fin c.nInstances => .next ((State.powerOn c).asCore k.val)

/-- Instance `k` moves by `f`; no other instance is touched (60_exceptions.md R153). -/
def System.act {n : Nat} (sys : System n) (k : Fin n) (f : State → Host.Outcome State Fault Refusal) : System n :=
  sys.set k.val (andThen sys[k.val] f)

/-- Commands of several instances, interleaved in any order. -/
def System.run {n : Nat} : System n → List (Fin n × Instr) → System n
  | sys, [] => sys
  | sys, (k, i) :: rest => (sys.act k (exec i)).run rest

/-- What can happen to one instance: the host issues beats (30_encoding.md R53), or the core takes a step, which runs the
beat at the head, waits, is refused, or is one micro-step. -/
inductive Event where
  | deliver (cs : List Beat)
  | step
deriving DecidableEq, Repr

/-- One event of one instance. -/
def State.event (s : State) : Event → Host.Outcome State Fault Refusal
  | .deliver cs => .next (s.deliver cs)
  | .step => Sys2Proof.Machine.step s

/-- Events of one instance in their order. -/
def runEvents : List Event → State → Host.Outcome State Fault Refusal
  | [], s => .next s
  | e :: es, s => andThen (s.event e) (runEvents es)

/-- Events of several instances, interleaved in any order. -/
def System.runEvents {n : Nat} : System n → List (Fin n × Event) → System n
  | sys, [] => sys
  | sys, (k, e) :: rest => (sys.act k (State.event · e)).runEvents rest

/-- What an interleaving holds for one instance, in its order. -/
def own {α : Type} {n : Nat} (k : Fin n) (sched : List (Fin n × α)) : List α :=
  (sched.filter fun p => p.1 = k).map fun p => p.2

end Sys2Proof.Machine
end

