-- ==== Sys2Proof/Machine/Window.lean ====
section
/-! DEFINITION. The on-the-fly form of the compression function (43_compression.md R134): a sliding window of sixteen
words, `W[j+4]` and `W'[j]` computed in the same step as round `j`. -/

namespace Sys2Proof.Machine

/-- The sixteen message words held, and the working registers. -/
structure WindowRegs where
  /-- `W[0..15]` before round 12, and `W[j-12 .. j+3]` before round `j` from round 12 on (R134). -/
  win : Vector Word 16
  work : WorkRegs
deriving DecidableEq, Repr

/-- `W[j+4]` from `W[j-12 .. j+1]` in the window (R125 at `j + 4`; R134). -/
def windowNext (win : Vector Word 16) : Word :=
  P1 (win[0] ^^^ win[7] ^^^ rotl win[13] 15) ^^^ rotl win[3] 7 ^^^ win[10]

/-- Drop the oldest word and append `x`. -/
def windowShift (win : Vector Word 16) (x : Word) : Vector Word 16 :=
  Vector.ofFn fun k : Fin 16 => if h : k.val < 15 then win[k.val + 1] else x

/-- Round `j` with its schedule words made on the fly (R134). -/
def windowRound (r : WindowRegs) (j : Nat) : WindowRegs :=
  if h : j < 12 then
    { r with work := roundShift r.work (roundMix r.work (BitVec.ofNat 6 j) r.win[j] (r.win[j] ^^^ r.win[j + 4])) }
  else
    let next := windowNext r.win
    { win := windowShift r.win next
      work := roundShift r.work (roundMix r.work (BitVec.ofNat 6 j) r.win[12] (r.win[12] ^^^ next)) }

/-- The registers after the first `n` rounds. -/
def windowRounds (v : HashValue) (blk : Block) : Nat → WindowRegs
  | 0 => { win := Vector.ofFn fun k : Fin 16 => messageWord blk k.val k.isLt, work := loadWork v }
  | n + 1 => windowRound (windowRounds v blk n) n

/-- The compression function with on-the-fly expansion (R134). -/
def CFWindow (v : HashValue) (blk : Block) : HashValue := feedForward v (windowRounds v blk 64).work

end Sys2Proof.Machine
end

