-- ==== Sys2Proof/Safety.lean ====
section
/-! DEFINITION. The terms claims are stated in: the architectural state (10_state.md R20), the invariants that hold
between commands (R32), and what a safe run is. -/

namespace Sys2Proof.Machine

/-- The architectural state of an instance (R20). -/
structure ArchState where
  v : HashValue
  pending : List Byte
  bufLen : BitVec 6
  len : BitVec 64
deriving DecidableEq, Repr

/-- The architectural part of a state (R20). -/
def State.arch (s : State) : ArchState := { v := s.v, pending := s.pending, bufLen := s.bufLen, len := s.len }

/-- The reset state as an architectural state (R31). -/
def ArchState.initial : ArchState := { v := IV, pending := [], bufLen := 0, len := 0 }

/-- `m` is the message absorbed since the last reset (R32): its length is `LEN` (modulo 2^64 under `wrap`), `V` is `CF`
over its whole blocks from `IV`, the pending bytes are the rest, and under `refuse` it has fewer than 2^61 bytes. -/
structure State.Holds (s : State) (m : List Byte) : Prop where
  len : s.len = BitVec.ofNat 64 m.length
  v : s.v = hashBlocks IV m (m.length / 64)
  bufLen : s.bufLen.toNat = m.length % 64
  pending : s.pending = m.drop (64 * (m.length / 64))
  bound : s.policy = .refuse → m.length < lenBound

/-- The invariant between commands (R32): IDLE, and some message is the one absorbed since the last reset. -/
def State.Inv (s : State) : Prop := s.seq = .idle ∧ ∃ m, s.Holds m

/-- A run is safe when it ends in a next state: no refusal, no fault. -/
def Safe (o : Host.Outcome State Fault Refusal) : Prop := ∃ t, o = .next t

end Sys2Proof.Machine
end

