-- ==== Sys2Proof/Certificates/Slice0/Obligations.lean ====
section
/-! DEFINITION. The statements for the provers. Each docstring names the rule it formalises; a clause that is the model's
own choice is marked and names its entry of the assumption log. Rules that the spec itself marks as derived or as from
general knowledge (R17, R32, R64, R69, R72, R73, R78 to R81, R99, R110, R117, R118, R125, R128, R133, R134, R137, R163; the
words of IV) back derived statements only: notes/assumptions/11.md. -/

open Sys2Proof Sys2Proof.Machine

/-! ### Encoding -/

/-- R64 (30_encoding.md): the decoder and the encoder as the rule writes them, the two round trips for one beat, and the
same for every sequence of beats on the channel. -/
def Obligations.DecodeAndEncodeAgree : Prop :=
  (∀ c : Beat, decode c =
    if c.extractLsb' 8 2 = 0b00#2 then .ok (.wbyte (c.extractLsb' 0 8))
    else if c = 0x100#10 then .ok .reset else if c = 0x200#10 then .ok .final else .error (.reserved c)) ∧
  (∀ b : Byte, encode (.wbyte b) = 0x000#10 + b.setWidth 10) ∧ encode .reset = 0x100#10 ∧ encode .final = 0x200#10 ∧
  (∀ i : Instr, decode (encode i) = .ok i) ∧ (∀ (c : Beat) (i : Instr), decode c = .ok i → encode i = c) ∧
  (∀ is : List Instr, decodeAll (encodeAll is) = .ok is) ∧
  (∀ (cs : List Beat) (is : List Instr), decodeAll cs = .ok is → encodeAll is = cs)

/-- R56 to R59 (30_encoding.md): the beats that decode to no command are the reserved ones, 766 of the 1024, and the
decoder names them. -/
def Obligations.ReservedBeatsAreThe766 : Prop :=
  (∀ c : Beat, (decode c = .error (.reserved c)) ↔
    (0x101#10 ≤ c ∧ c ≤ 0x1ff#10) ∨ (0x201#10 ≤ c ∧ c ≤ 0x2ff#10) ∨ (0x300#10 ≤ c ∧ c ≤ 0x3ff#10)) ∧
  (∀ (c : Beat) (e : DecodeError), decode c = .error e → e = .reserved c) ∧
  ((List.range 1024).filter fun n => !Beat.wellFormed (BitVec.ofNat 10 n)).length = 766

/-- A sanity statement on beats written out bit by bit from 30_encoding.md R54 and R56 to R59 (the table of
95_test_vectors.md section 4.7). -/
def Obligations.WrittenOutBeatsDecode : Prop :=
  decode 0b0001100001#10 = .ok (.wbyte 0x61#8) ∧ decode 0b0000000000#10 = .ok (.wbyte 0x00#8) ∧
  decode 0b0010000000#10 = .ok (.wbyte 0x80#8) ∧ decode 0b0011111111#10 = .ok (.wbyte 0xff#8) ∧
  decode 0b0100000000#10 = .ok .reset ∧ decode 0b1000000000#10 = .ok .final ∧
  decode 0b0100000001#10 = .error (.reserved 0x101#10) ∧ decode 0b1010000000#10 = .error (.reserved 0x280#10) ∧
  decode 0b1101100001#10 = .error (.reserved 0x361#10)

/-- R67 and R63 (30_encoding.md): what the pseudo-commands and the alias expand to, as commands and as beats. -/
def Obligations.PseudoCommandsExpand : Prop :=
  (∀ s : List Byte, expandLine (.write s) = s.map Instr.wbyte ∧ lineBeats (.write s) = s.map fun b => 0b00#2 ++ b) ∧
  expandLine (.write []) = [] ∧ expandLine .sum = expandLine .final ∧
  (∀ s : List Byte, expandLine (.digest s) = expandLine .reset ++ expandLine (.write s) ++ expandLine .final) ∧
  (∀ s : List Byte, lineBeats (.digest s) = [0x100#10] ++ (s.map fun b => 0b00#2 ++ b) ++ [0x200#10])

/-! ### Steps -/

/-- R53 (30_encoding.md): in IDLE a step consumes the beat at the head of the channel, exactly that one, and is the
execution of the command it decodes to.
That the channel is a list of which a step from IDLE takes the head, one whole command a step, is the model's choice:
notes/assumptions/4.md and 6.md. -/
def Obligations.StepRunsTheDecodedCommand : Prop :=
  ∀ (s : State) (c : Beat) (cs : List Beat) (i : Instr), s.seq = .idle → s.cmd = c :: cs → decode c = .ok i →
    step s = exec i { s with cmd := cs }

/-- R59 (30_encoding.md): a reserved beat is refused, by name; there is no next state. -/
def Obligations.ReservedBeatIsRefused : Prop :=
  ∀ (s : State) (c : Beat) (cs : List Beat), s.seq = .idle → s.cmd = c :: cs →
    (0x101#10 ≤ c ∧ c ≤ 0x1ff#10) ∨ (0x201#10 ≤ c ∧ c ≤ 0x2ff#10) ∨ (0x300#10 ≤ c ∧ c ≤ 0x3ff#10) →
    step s = .refused (.reservedBeat c)

/-- R157 (60_exceptions.md): in IDLE with no beat on the channel the core waits and keeps its state. -/
def Obligations.IdleCoreWaits : Prop := ∀ s : State, s.seq = .idle → s.cmd = [] → step s = .next s

/-- R143, R144, R151 (60_exceptions.md): no step and no command ever faults, and a step is refused in exactly two
situations: a reserved beat, and under `refuse` a WBYTE that would take `LEN` to 2^61 or beyond. -/
def Obligations.OnlyTwoRefusalsAndNoFault : Prop :=
  (∀ (s : State) (r : Fault), step s ≠ .fault r) ∧ (∀ (i : Instr) (s : State) (r : Fault), exec i s ≠ .fault r) ∧
  ∀ (s : State) (r : Refusal), step s = .refused r ↔
    s.seq = .idle ∧ ∃ (c : Beat) (cs : List Beat), s.cmd = c :: cs ∧
      ((decode c = .error (.reserved c) ∧ r = .reservedBeat c) ∨
       (∃ b : Byte, decode c = .ok (.wbyte b) ∧ s.policy = .refuse ∧ 2 ^ 61 ≤ s.len.toNat + 1 ∧ r = .lengthOverflow))

/-- R60, R61, R62 (30_encoding.md), as a rule of the whole machine: a step from any state only appends to the response
channel, and every beat it appends is the ACK `0x001` or a DIGEST beat; in IDLE it appends none, one ACK or 32 DIGEST
beats, as the command is none or RESET, WBYTE or FINAL.
That the response channel is a list no step shortens is the model's choice: notes/assumptions/5.md. -/
def Obligations.StepsOnlyAppendAcksAndDigests : Prop :=
  ∀ s t : State, step s = .next t → ∃ new : List Response, t.rsp = s.rsp ++ new ∧
    (∀ r ∈ new, r = 0x001#9 ∨ Response.k r = 1#1) ∧
    (s.seq = .idle →
      (s.cmd = [] → new = []) ∧
      (∀ c cs, s.cmd = c :: cs → decode c = .ok .reset → new = []) ∧
      (∀ c cs b, s.cmd = c :: cs → decode c = .ok (.wbyte b) → new = [0x001#9]) ∧
      (∀ c cs, s.cmd = c :: cs → decode c = .ok .final → new.length = 32 ∧ ∀ r ∈ new, Response.k r = 1#1))

/-- R14 (10_state.md), as a rule of the whole machine: between commands `V` changes only by RESET, by FINAL, or by the
WBYTE that completes a block; the first two leave `IV`, the third `CF` of the completed block. -/
def Obligations.OnlyResetsAndFullBlocksWriteV : Prop :=
  ∀ s t : State, s.seq = .idle → step s = .next t → t.v ≠ s.v →
    ∃ (c : Beat) (cs : List Beat), s.cmd = c :: cs ∧
      ((decode c = .ok .reset ∧ t.v = IV) ∨ (decode c = .ok .final ∧ t.v = IV) ∨
       (∃ b : Byte, decode c = .ok (.wbyte b) ∧ s.bufLen = 63#6 ∧ t.v = CF s.v (s.buf.set 63 b)))

/-! ### Reset -/

/-- R161 and R71: the state after power-on, for every configuration, and the eight words of `IV`; `State.reset` is the
power-on state of the default parameters (00_scope.md R7).
That both channels are empty then is the
model's choice: notes/assumptions/4.md and 5.md. -/
def Obligations.PowerOnState : Prop :=
  (∀ c : Config, (State.powerOn c).v =
      #v[0x7380166f#32, 0x4914b2b9#32, 0x172442d7#32, 0xda8a0600#32, 0xa96f30bc#32, 0x163138aa#32, 0xe38dee4d#32, 0xb0fb0e4e#32] ∧
    (State.powerOn c).bufLen = 0 ∧ (State.powerOn c).len = 0 ∧ (State.powerOn c).seq = .idle ∧
    (State.powerOn c).cmd = [] ∧ (State.powerOn c).rsp = []) ∧
  State.reset = State.powerOn { lenOverflowPolicy := .refuse, nInstances := 1 }

/-- R93 (41_commands_reset_write.md): RESET, the beat `0x100`, from every state: `V = IV`, `BUFLEN = 0`, `LEN = 0`,
IDLE, nothing pending, no response; the channels and the policy stay. What the stale bytes of `BUF` and the transient
registers hold afterwards is unspecified (R31, R162): nothing is said of them, and in the model they are free values. -/
def Obligations.ResetCommandEffect : Prop :=
  encode .reset = 0x100#10 ∧ ∀ s : State, ∃ t, exec .reset s = .next t ∧
    t.v = IV ∧ t.bufLen = 0 ∧ t.len = 0 ∧ t.pending = [] ∧ t.seq = .idle ∧
    t.rsp = s.rsp ∧ t.cmd = s.cmd ∧ t.policy = s.policy

/-- R163 (70_reset_and_hazards.md): power-on reset, RESET from any state and FINAL from any state leave the same
architectural state, in IDLE. -/
def Obligations.ThreeResetsOneState : Prop :=
  ∀ (c : Config) (s : State),
    (State.powerOn c).arch = { v := IV, pending := [], bufLen := 0, len := 0 } ∧ (State.powerOn c).seq = .idle ∧
    (∃ t, exec .reset s = .next t ∧ t.arch = (State.powerOn c).arch ∧ t.seq = .idle) ∧
    (∃ t, exec .final s = .next t ∧ t.arch = (State.powerOn c).arch ∧ t.seq = .idle)

/-! ### WBYTE and WRITE -/

/-- R97 with R95 (41_commands_reset_write.md): WBYTE in the length domain, from every state. With room in the buffer it
writes `BUF[BUFLEN]`, `BUFLEN`, `LEN`, `SEQ`, one ACK, and nothing else. With 63 bytes pending it also compresses the 64
bytes into `V` and writes the transient registers `W`, `W'`, `A` to `H`, `SS1` to `TT2`, `j`; the latched length, the
command channel and the policy stay. -/
def Obligations.WbyteEffect : Prop :=
  ∀ (s : State) (b : Byte), (s.policy = .refuse → s.len.toNat + 1 < 2 ^ 61) →
    (s.bufLen ≠ 63#6 → exec (.wbyte b) s = .next { s with
      buf := s.buf.set s.bufLen.toNat b s.bufLen.isLt, bufLen := s.bufLen + 1, len := s.len + 1,
      rsp := s.rsp ++ [0x001#9], seq := .idle }) ∧
    (s.bufLen = 63#6 → ∃ t, exec (.wbyte b) s = .next t ∧
      t.v = CF s.v (s.buf.set 63 b) ∧ t.buf = s.buf.set 63 b ∧ t.bufLen = 0 ∧ t.len = s.len + 1 ∧
      t.rsp = s.rsp ++ [0x001#9] ∧ t.seq = .idle ∧ t.l = s.l ∧ t.cmd = s.cmd ∧ t.policy = s.policy)

/-- R95 (41_commands_reset_write.md): PUSH from every state, register by register; it does not touch `LEN`. The contents
of the transient registers after the compression are those the steps of R123 write. -/
def Obligations.PushStoresThenCompresses : Prop :=
  ∀ (s : State) (b : Byte),
    (s.bufLen ≠ 63#6 → s.push b =
      { s with buf := s.buf.set s.bufLen.toNat b s.bufLen.isLt, bufLen := s.bufLen + 1 }) ∧
    (s.bufLen = 63#6 → s.push b = { ({ s with buf := s.buf.set 63 b } : State).compress with bufLen := 0 } ∧
      (s.push b).v = CF s.v (s.buf.set 63 b) ∧ (s.push b).buf = s.buf.set 63 b) ∧
    (s.push b).len = s.len ∧ (s.push b).l = s.l ∧ (s.push b).seq = s.seq ∧ (s.push b).cmd = s.cmd ∧
    (s.push b).rsp = s.rsp ∧ (s.push b).policy = s.policy

/-- R19 (10_state.md): under `refuse` a WBYTE or a WRITE of some bytes that would take `LEN` to 2^61 or beyond is
refused; under `wrap` every
WBYTE runs and `LEN` counts modulo 2^64; the bit length is `LEN * 8` modulo 2^64, and exact below 2^61. -/
def Obligations.LengthOverflowPolicies : Prop :=
  (∀ (s : State) (b : Byte), s.policy = .refuse → 2 ^ 61 ≤ s.len.toNat + 1 → exec (.wbyte b) s = .refused .lengthOverflow) ∧
  (∀ (s : State) (data : List Byte), s.policy = .refuse → data ≠ [] → 2 ^ 61 ≤ s.len.toNat + data.length →
    execWrite data s = .refused .lengthOverflow) ∧
  (∀ (s : State) (b : Byte), s.policy = .wrap → ∃ t, exec (.wbyte b) s = .next t ∧ t.len.toNat = (s.len.toNat + 1) % 2 ^ 64) ∧
  (∀ n : BitVec 64, (bitLength n).toNat = (n.toNat * 8) % 2 ^ 64) ∧
  (∀ n : BitVec 64, n.toNat < 2 ^ 61 → (bitLength n).toNat = n.toNat * 8)

/-- R98 (41_commands_reset_write.md): the empty WRITE is legal in every idle state, changes nothing, and is no beats. That it is
accepted under `refuse` also with `LEN` at or above 2^61, where R19 and R96 put a WRITE outside the domain, is the model's
reading (DEDUCED): notes/assumptions/8.md. -/
def Obligations.EmptyWriteChangesNothing : Prop :=
  (∀ s : State, s.seq = .idle → execWrite [] s = .next (s, 0)) ∧ lineBeats (.write []) = []

/-- R96 (41_commands_reset_write.md), the closed form: with `S` the pending bytes followed by `data`, a WRITE in the
length domain (the burst of its bytes' WBYTE beats) compresses the whole blocks of `S` in stream order, keeps the rest
pending, counts `len(data)` bytes and
answers `ACCEPTED = len(data)`.
That the command-level WRITE puts no ACK on the response
channel is the model's reading: notes/assumptions/13.md. -/
def Obligations.WriteClosedForm : Prop :=
  ∀ (s : State) (data : List Byte), (s.policy = .refuse → s.len.toNat + data.length < 2 ^ 61) →
    lineBeats (.write data) = data.map (fun b => 0b00#2 ++ b) ∧ ∃ t, execWrite data s = .next (t, data.length) ∧
      t.v = hashBlocks s.v (s.pending ++ data) ((s.bufLen.toNat + data.length) / 64) ∧
      t.pending = (s.pending ++ data).drop (64 * ((s.bufLen.toNat + data.length) / 64)) ∧
      t.bufLen.toNat = (s.bufLen.toNat + data.length) % 64 ∧
      t.len = s.len + BitVec.ofNat 64 data.length ∧
      t.seq = .idle ∧ t.l = s.l ∧ t.cmd = s.cmd ∧ t.rsp = s.rsp ∧ t.policy = s.policy

/-- R99 (41_commands_reset_write.md): any partition of a message into chunks, of any sizes including zero, leaves exactly
the state that one WRITE of the whole message leaves.
The WRITEs are those of the command level, without ACKs: notes/assumptions/13.md. -/
def Obligations.StreamingEquivalence : Prop :=
  ∀ (s : State) (chunks : List (List Byte)), s.seq = .idle →
    (s.policy = .refuse → s.len.toNat + chunks.flatten.length < 2 ^ 61) →
    ∃ t, execWrite chunks.flatten s = .next (t, chunks.flatten.length) ∧ execWrites chunks s = .next t

/-- R69 (30_encoding.md): the burst of WBYTE beats and the command-level WRITE agree, in every idle state: the same end
state (the burst has also produced one ACK per byte), the same refusal, and `ACCEPTED` is the sum of the ACKs.
The WRITE without ACKs is the
model's reading: notes/assumptions/13.md. -/
def Obligations.BurstAgreesWithWrite : Prop :=
  ∀ (s : State) (data : List Byte), s.seq = .idle →
    (∀ t n, execWrite data s = .next (t, n) →
      runAll (data.map .wbyte) s = .next { t with rsp := s.rsp ++ List.replicate data.length 0x001#9 } ∧
      n = dataSum (List.replicate data.length 0x001#9)) ∧
    (∀ r, execWrite data s = .refused r → runAll (data.map .wbyte) s = .refused r)

/-- R38 (20_memory.md): from every state between commands, the byte a WBYTE absorbs lands at `BUF[LEN mod 64]`, and every
other byte of `BUF` stays. -/
def Obligations.ByteLandsAtLengthMod64 : Prop :=
  ∀ (s : State) (b : Byte), s.Inv → (s.policy = .refuse → s.len.toNat + 1 < 2 ^ 61) →
    ∃ t, exec (.wbyte b) s = .next t ∧ ∀ (k : Nat) (h : k < 64),
      t.buf[k] = if k = s.len.toNat % 64 then b else s.buf[k]

/-! ### FINAL -/

/-- R107 (42_finalize_padding_serialization.md), with R111 and R113 to R116: FINAL, the beat `0x200`, from every state answers a
next state.
With `M` the pending bytes followed by the padding, `V` goes through the one or two blocks of `M`, the 32
DIGEST beats of the result follow the responses so far in order, and the core is back in the reset state; the command
channel and the policy stay. -/
def Obligations.FinalEmitsTheDigestAndResets : Prop :=
  encode .final = 0x200#10 ∧ ∀ s : State, ∃ t, exec .final s = .next t ∧
    ((s.pending ++ pad s.bufLen.toNat (bitLength s.len)).length = 64 * 1 ∨
      (s.pending ++ pad s.bufLen.toNat (bitLength s.len)).length = 64 * 2) ∧
    t.rsp = s.rsp ++ (serialize (hashBlocks s.v (s.pending ++ pad s.bufLen.toNat (bitLength s.len))
      ((s.pending ++ pad s.bufLen.toNat (bitLength s.len)).length / 64))).toList.map (fun d => 1#1 ++ d) ∧
    t.v = IV ∧ t.bufLen = 0 ∧ t.len = 0 ∧ t.pending = [] ∧ t.seq = .idle ∧
    t.cmd = s.cmd ∧ t.policy = s.policy

/-- R109 and R111 (42_finalize_padding_serialization.md): `PAD(n, L)` byte for byte, the padding pipeline is PUSH of the
string `PAD(BUFLEN, L)`, and the fill loop stops at `BUFLEN = 56`. -/
def Obligations.PaddingPipelinePushesPad : Prop :=
  (∀ (n : Nat) (l : BitVec 64),
    pad n l = [0x80#8] ++ List.replicate (padFillCount n) 0x00#8 ++ (be64 l).toList) ∧
  ∀ s : State, s.padMessage = s.pushAll (pad s.bufLen.toNat s.l) ∧
    ((s.push padMark).zeroFill 63).bufLen = 56#6 ∧ s.padMessage.bufLen = 0

/-- R110 (42_finalize_padding_serialization.md): how much padding, for `n` = 0 to 63 pending bytes. -/
def Obligations.PaddingLengths : Prop :=
  ∀ (n : Nat) (l : BitVec 64), n < 64 →
    (padFillCount n : Int) = (55 - (n : Int)) % 64 ∧ padFillCount n ≤ 63 ∧
    (pad n l).length = 1 + padFillCount n + 8 ∧ 9 ≤ (pad n l).length ∧ (pad n l).length ≤ 72 ∧
    (n ≤ 55 → padFillCount n = 55 - n ∧ (pad n l).length = 64 - n) ∧
    (56 ≤ n → padFillCount n = 119 - n ∧ (pad n l).length = 128 - n)

/-- R37 (20_memory.md): the digest layout. -/
def Obligations.DigestLayout : Prop :=
  ∀ v : HashValue,
    (∀ (i k : Nat) (hi : i < 8) (hk : k < 4), (serialize v)[4 * i + k] = (be32 v[i])[k]) ∧
    (serialize v).toList = (be32 v[0]).toList ++ (be32 v[1]).toList ++ (be32 v[2]).toList ++ (be32 v[3]).toList ++
      (be32 v[4]).toList ++ (be32 v[5]).toList ++ (be32 v[6]).toList ++ (be32 v[7]).toList ∧
    (serialize v)[0] = v[0].extractLsb' 24 8 ∧ (serialize v)[31] = v[7].extractLsb' 0 8

/-! ### What the core computes -/

/-- R118 (42_finalize_padding_serialization.md): from the reset state (and whatever the stale bytes, the transient
registers and the channels hold), WRITEs whose data concatenate to `m`, then FINAL, answer `SM3(m)` and end in the reset
state.
That no ACKs stand before the digest is the model's reading of the command-level WRITE: notes/assumptions/13.md. -/
def Obligations.WritesThenFinalComputeSM3 : Prop :=
  ∀ (s : State) (chunks : List (List Byte)), s.seq = .idle → s.arch = ArchState.initial →
    chunks.flatten.length < 2 ^ 61 →
    ∃ u, andThen (execWrites chunks s) (exec .final) = .next u ∧
      u.rsp = s.rsp ++ (sm3 chunks.flatten).toList.map digestBeat ∧ u.arch = ArchState.initial ∧ u.seq = .idle

/-- R101 with R70 (41_commands_reset_write.md, 30_encoding.md): the beats of `DIGEST data`, put on the empty channel of a
core in any idle state and run one step per beat through the decoder, answer one ACK per byte and then `SM3(data)`, and
leave the reset state: a message in progress is discarded.
The channel as a list is the model's: notes/assumptions/4.md
and 5.md. -/
def Obligations.DigestBeatsComputeSM3 : Prop :=
  ∀ (s : State) (data : List Byte), s.seq = .idle → s.cmd = [] → data.length < 2 ^ 61 →
    ∃ u, runBeats (lineBeats (.digest data)) s = .next u ∧
      u.rsp = s.rsp ++ List.replicate data.length (ackBeat 1) ++ (sm3 data).toList.map digestBeat ∧
      u.arch = ArchState.initial ∧ u.seq = .idle ∧ u.cmd = []

/-- R101 (41_commands_reset_write.md), at the command level: `DIGEST(data)` from every state, in the middle of a message or
not, answers `SM3(data)` and leaves the reset state.
No ACKs stand before the digest at this level, by the model's reading:
notes/assumptions/13.md. -/
def Obligations.DigestCommandComputesSM3 : Prop :=
  ∀ (s : State) (data : List Byte), data.length < 2 ^ 61 →
    ∃ u, execDigest data s = .next u ∧ u.rsp = s.rsp ++ (sm3 data).toList.map digestBeat ∧
      u.arch = ArchState.initial ∧ u.seq = .idle

/-- R117 (42_finalize_padding_serialization.md): after FINAL, from any state, the core hashes the next message as a fresh
one does; a second FINAL at once answers the digest of the empty message. -/
def Obligations.ReuseAfterFinal : Prop :=
  (∀ (s : State) (m : List Byte), m.length < 2 ^ 61 → ∃ t u, exec .final s = .next t ∧
    runAll (m.map .wbyte ++ [.final]) t = .next u ∧
    u.rsp = t.rsp ++ List.replicate m.length (ackBeat 1) ++ (sm3 m).toList.map digestBeat ∧ u.arch = ArchState.initial) ∧
  (∀ s : State, ∃ t u, exec .final s = .next t ∧ exec .final t = .next u ∧
    u.rsp = t.rsp ++ (sm3 []).toList.map digestBeat)

/-! ### The compression function -/

/-- R124, R125 and R126 (43_compression.md): after LOADW and EXPAND, in every state, every word of the schedule is what its
rule says, and no other register has changed. -/
def Obligations.ScheduleWords : Prop :=
  ∀ s : State,
    (∀ (i : Nat) (h : i < 16), s.loadw.expand.w[i] =
      s.buf[4 * i] ++ s.buf[4 * i + 1] ++ s.buf[4 * i + 2] ++ s.buf[4 * i + 3]) ∧
    (∀ (j : Nat) (h : 16 ≤ j ∧ j < 68), s.loadw.expand.w[j] =
      P1 (s.loadw.expand.w[j - 16] ^^^ s.loadw.expand.w[j - 9] ^^^ rotl s.loadw.expand.w[j - 3] 15) ^^^
        rotl s.loadw.expand.w[j - 13] 7 ^^^ s.loadw.expand.w[j - 6]) ∧
    (∀ (j : Nat) (h : j < 64), s.loadw.expand.w'[j] = s.loadw.expand.w[j] ^^^ s.loadw.expand.w[j + 4]) ∧
    s.loadw.expand = { s with w := s.loadw.expand.w, w' := s.loadw.expand.w' }

/-- R128 (43_compression.md): one round, in every state.
That the round stores `SS1` to `TT2` in registers is the model's choice:
notes/assumptions/12.md (R128 writes `A` to `H`, and R23 says the four need not be registers). -/
def Obligations.RoundEffect : Prop :=
  ∀ (s : State) (h : s.j.toNat < 64), ∃ ss1 ss2 tt1 tt2 : Word,
    ss1 = rotl (rotl s.work.a 12 + s.work.e + TR s.j) 7 ∧
    ss2 = ss1 ^^^ rotl s.work.a 12 ∧
    tt1 = FF s.j s.work.a s.work.b s.work.c + s.work.d + ss2 + s.w'[s.j.toNat] ∧
    tt2 = GG s.j s.work.e s.work.f s.work.g + s.work.h + ss1 + s.w[s.j.toNat] ∧
    s.round = { s with
      mix := { ss1 := ss1, ss2 := ss2, tt1 := tt1, tt2 := tt2 }
      work := { a := tt1, b := s.work.a, c := rotl s.work.b 9, d := s.work.c,
                e := P0 tt2, f := s.work.e, g := rotl s.work.f 19, h := s.work.g } }

/-- R123, R130 and R133 (43_compression.md): COMPRESS in every state sets `V` to `V ^ (A..H)` with `A` to `H` as the 64
rounds leave them, which is `CF(V, BUF)`; it does not touch `BUF`, `BUFLEN`, `LEN`, `L`, the sequencer or the channels,
and what it leaves depends on `V` and `BUF` alone. INIT (R127) copies `V[0..7]` into `A` to `H` in order and clears `j`, and
COMPRESS is LOADW, EXPAND, INIT, the rounds 0 to 63 and FEEDFWD. That `SS1` to `TT2` are registers a round writes, and that
`j` keeps the number of the last round, is the model's choice: notes/assumptions/12.md. -/
def Obligations.CompressIsAFunctionOfVAndBlock : Prop :=
  (∀ s : State, s.initWork = { s with
    work := { a := s.v[0], b := s.v[1], c := s.v[2], d := s.v[3], e := s.v[4], f := s.v[5], g := s.v[6], h := s.v[7] }
    j := 0 }) ∧
  (∀ s : State, s.compress =
    ((fun t : State => { t.round with j := t.j + 1 })^[63] s.loadw.expand.initWork).round.feedfwd) ∧
  (∀ s : State, s.compress.v = CF s.v s.buf ∧
    s.compress.v = #v[s.v[0] ^^^ s.compress.work.a, s.v[1] ^^^ s.compress.work.b, s.v[2] ^^^ s.compress.work.c,
      s.v[3] ^^^ s.compress.work.d, s.v[4] ^^^ s.compress.work.e, s.v[5] ^^^ s.compress.work.f,
      s.v[6] ^^^ s.compress.work.g, s.v[7] ^^^ s.compress.work.h] ∧
    s.compress.buf = s.buf ∧ s.compress.bufLen = s.bufLen ∧ s.compress.len = s.len ∧ s.compress.l = s.l ∧
    s.compress.seq = s.seq ∧ s.compress.cmd = s.cmd ∧ s.compress.rsp = s.rsp ∧ s.compress.policy = s.policy) ∧
  (∀ s t : State, s.v = t.v → s.buf = t.buf →
    s.compress.v = t.compress.v ∧ s.compress.w = t.compress.w ∧ s.compress.w' = t.compress.w' ∧
    s.compress.work = t.compress.work ∧ s.compress.mix = t.compress.mix ∧ s.compress.j = t.compress.j)

/-- R134 (43_compression.md): the on-the-fly form with a window of sixteen words computes the same function. -/
def Obligations.SlidingWindowComputesCF : Prop := ∀ (v : HashValue) (blk : Block), CFWindow v blk = CF v blk

/-! ### The sequencer -/

/-- R137 with R131 and R132 (43_compression.md): from `C_LOAD`, whatever the phase that called, the state machine is in
`C_` phases for 67 micro-steps and then back in the calling phase, with COMPRESS done and `BUFLEN` cleared by the calling
PUSH.
What `j` and `SS1` to `TT2` hold afterwards is the model's: notes/assumptions/12.md. -/
def Obligations.CompressTakes67MicroSteps : Prop :=
  ∀ (s : State) (caller : PushPhase), s.seq = .cLoad caller →
    s.microSteps 67 = (s.compress.setBufLen 0).goto caller.resume ∧
    ∀ k, k < 67 → (s.microSteps k).seq ∈ [Phase.cLoad caller, .cExpand caller, .cRound caller, .cFeed caller]

/-- R119 and R131 (42_finalize_padding_serialization.md, 43_compression.md), with R97 and R93: the sequencer, run from the
IDLE row row by row, ends every command in IDLE, in the state that the command as one action reaches, and was never in
IDLE before; a command refused as one action is refused at the IDLE row. The bound 256 is the model's.
The phases are those
of notes/assumptions/6.md; whole states are compared, so free values too, drawn for the same reset:
notes/assumptions/2.md. -/
def Obligations.SequencerRefinesCommands : Prop :=
  ∀ (s : State) (i : Instr), s.seq = .idle →
    (∀ t, exec i s = .next t → ∃ s0 n, s.accept i = .next s0 ∧ n ≤ 256 ∧ s0.microSteps n = t ∧ t.seq = .idle ∧
      ∀ k, k < n → (s0.microSteps k).seq ≠ .idle) ∧
    (∀ r, exec i s = .refused r → s.accept i = .refused r)

/-! ### Word functions and byte order -/

/-- R75 (40_constants_and_word_functions.md): left rotation as arithmetic, its composition law and its fixed points. -/
def Obligations.RotationArithmetic : Prop :=
  (∀ (x : Word) (n : Nat), (rotl x n).toNat = (x.toNat * 2 ^ (n % 32)) % 2 ^ 32 + x.toNat / 2 ^ (32 - n % 32)) ∧
  (∀ (x : Word) (n : Nat), n % 32 = 0 → rotl x n = x) ∧
  (∀ n : Nat, rotl 0 n = 0 ∧ rotl 0xffffffff#32 n = 0xffffffff#32) ∧
  (∀ (x : Word) (a b : Nat), rotl (rotl x a) b = rotl x (a + b))

/-- R78 (40_constants_and_word_functions.md): `P0` by its formula, a bijection, linear over exclusive-or. -/
def Obligations.P0IsALinearBijection : Prop :=
  (∀ x : Word, P0 x = x ^^^ rotl x 9 ^^^ rotl x 17) ∧ Function.Bijective P0 ∧
  (∀ x y : Word, P0 (x ^^^ y) = P0 x ^^^ P0 y) ∧ P0 0 = 0 ∧ P0 0xffffffff#32 = 0xffffffff#32

/-- R79 (40_constants_and_word_functions.md): `P1` by its formula, linear over exclusive-or. -/
def Obligations.P1IsLinear : Prop :=
  (∀ x : Word, P1 x = x ^^^ rotl x 15 ^^^ rotl x 23) ∧ (∀ x y : Word, P1 (x ^^^ y) = P1 x ^^^ P1 y) ∧
  P1 0 = 0 ∧ P1 0xffffffff#32 = 0xffffffff#32

/-- R80 and R81 (40_constants_and_word_functions.md), and their truth table: bit by bit, `FF` and `GG` are parity in rounds
0 to 15; from round 16 `FF` is the majority of the three and `GG` takes `y`'s bit where `x` has 1 and `z`'s where it has
0. With three equal operands `FF` returns the operand in every round, and in `GG`'s second form `|` may be `^` or `+`. -/
def Obligations.BooleanFunctionsBitByBit : Prop :=
  ∀ (j : BitVec 6) (x y z : Word),
    (j.toNat ≤ 15 → ∀ (i : Nat) (h : i < 32), (FF j x y z)[i] = (x[i] ^^ y[i] ^^ z[i]) ∧ (GG j x y z)[i] = (x[i] ^^ y[i] ^^ z[i])) ∧
    (16 ≤ j.toNat → ∀ (i : Nat) (h : i < 32),
      (FF j x y z)[i] = (if x[i] = y[i] then x[i] else z[i]) ∧ (GG j x y z)[i] = (if x[i] then y[i] else z[i])) ∧
    FF j x x x = x ∧
    (16 ≤ j.toNat → GG j x y z = (x &&& y) ^^^ (~~~x &&& z) ∧ GG j x y z = (x &&& y) + (~~~x &&& z))

/-- R72, R73 and R129: the round constant, its rotation by `j mod 32`, and that rounds 48 to 63 repeat rounds 16 to 31. -/
def Obligations.RoundConstants : Prop :=
  (∀ j : BitVec 6, j.toNat ≤ 15 → T j = 0x79cc4519#32) ∧ (∀ j : BitVec 6, 16 ≤ j.toNat → T j = 0x7a879d8a#32) ∧
  (∀ j : BitVec 6, TR j = rotl (T j) (j.toNat % 32)) ∧
  (∀ k : Nat, k < 16 → TR (BitVec.ofNat 6 (48 + k)) = TR (BitVec.ofNat 6 (16 + k))) ∧
  TR 0 = 0x79cc4519#32 ∧ TR 15 = 0x228cbce6#32 ∧ TR 16 = 0x9d8a7a87#32 ∧ TR 32 = 0x7a879d8a#32 ∧ TR 63 = 0x3d43cec5#32

/-- R76 and R77 (40_constants_and_word_functions.md): the sums are the low 32 bits of the sums of unbounded integers. -/
def Obligations.AdderTreesKeepTheLow32Bits : Prop :=
  (∀ x y : Word, (x + y).toNat = (x.toNat + y.toNat) % 2 ^ 32) ∧
  (∀ x y z : Word, (add3 x y z).toNat = (x.toNat + y.toNat + z.toNat) % 2 ^ 32) ∧
  (∀ x y z t : Word, (add4 x y z t).toNat = (x.toNat + y.toNat + z.toNat + t.toNat) % 2 ^ 32 ∧
    add4 x y z t = (x + y) + (z + t) ∧ add4 x y z t = add4 t z y x)

/-- R35 (20_memory.md): `BE32`, its value, and that parsing inverts it both ways; word `i` of a block is made of the bytes
`4i` to `4i + 3`, as a number too. -/
def Obligations.BigEndianWords : Prop :=
  (∀ w : Word, be32 w = #v[w.extractLsb' 24 8, w.extractLsb' 16 8, w.extractLsb' 8 8, w.extractLsb' 0 8] ∧
    be32Inv (be32 w)[0] (be32 w)[1] (be32 w)[2] (be32 w)[3] = w) ∧
  (∀ b0 b1 b2 b3 : Byte, be32 (be32Inv b0 b1 b2 b3) = #v[b0, b1, b2, b3]) ∧
  (∀ (blk : Block) (i : Nat) (h : i < 16), (messageWord blk i h).toNat =
    blk[4 * i].toNat * 2 ^ 24 + blk[4 * i + 1].toNat * 2 ^ 16 + blk[4 * i + 2].toNat * 2 ^ 8 + blk[4 * i + 3].toNat)

/-- R36 (20_memory.md): `BE64`; in a block whose last eight bytes are `BE64(L)`, `W[14]` and `W[15]` are the halves of
`L`. -/
def Obligations.LengthFieldWords : Prop :=
  ∀ l : BitVec 64,
    be64 l = #v[l.extractLsb' 56 8, l.extractLsb' 48 8, l.extractLsb' 40 8, l.extractLsb' 32 8,
      l.extractLsb' 24 8, l.extractLsb' 16 8, l.extractLsb' 8 8, l.extractLsb' 0 8] ∧
    ∀ blk : Block, (∀ (k : Nat) (h : k < 8), blk[56 + k] = (be64 l)[k]) →
      messageWord blk 14 (by omega) = l.extractLsb' 32 32 ∧ messageWord blk 15 (by omega) = l.extractLsb' 0 32

/-- R10 (00_scope.md): the memory primitives at every width and address in range: what is written is read back, the byte at
the lowest index is the most significant, and every byte outside the stored ones stays. -/
def Obligations.MemoryPrimitives : Prop :=
  ∀ (buf : Block) (addr n : Nat) (v : BitVec (8 * n)) (h : addr + n ≤ 64),
    memRead (memWrite buf addr n v h) addr n h = v ∧
    (∀ (k : Nat) (hk : k < n), (memWrite buf addr n v h)[addr + k] = v.extractLsb' (8 * (n - 1 - k)) 8) ∧
    (∀ (a : Nat) (ha : a < 64), a < addr ∨ addr + n ≤ a → (memWrite buf addr n v h)[a] = buf[a])

/-! ### Invariants, isolation, instances -/

/-- R32 (10_state.md): every step keeps the invariant between commands, from every state that has it, under both length
policies: IDLE, and for some message `m` absorbed since the last reset `LEN` is its length, `V` is `CF` over its whole
blocks, the pending bytes are the rest, and under `refuse` it is shorter than 2^61 bytes. -/
def Obligations.StepKeepsTheInvariant : Prop := ∀ s t : State, s.Inv → step s = .next t → t.Inv

/-- R32 (10_state.md) at the start: the power-on state of every configuration, and so the reset state, has it. -/
def Obligations.PowerOnHasTheInvariant : Prop := (∀ c : Config, (State.powerOn c).Inv) ∧ State.reset.Inv

/-- R17 and R32 (10_state.md): between commands `BUFLEN = LEN mod 64`, under both policies, and under `refuse`
`LEN < 2^61`. -/
def Obligations.FillCountIsLengthMod64 : Prop :=
  ∀ s : State, s.Inv → s.bufLen.toNat = s.len.toNat % 64 ∧ (s.policy = .refuse → s.len.toNat < 2 ^ 61)

/-- R20 with R30 (10_state.md): two states with the same architectural part (and the same policy), whatever their stale
bytes, transient registers and channels hold, respond identically to every command sequence, are refused alike, and end
with the same architectural part. -/
def Obligations.ArchitecturalStateDeterminesResponses : Prop :=
  ∀ (s t : State) (is : List Instr), s.arch = t.arch → s.policy = t.policy →
    (∃ s' t' new, runAll is s = .next s' ∧ runAll is t = .next t' ∧ s'.arch = t'.arch ∧
      s'.rsp = s.rsp ++ new ∧ t'.rsp = t.rsp ++ new) ∨
    (∃ r, runAll is s = .refused r ∧ runAll is t = .refused r)

/-- R153 (60_exceptions.md): in a system of `n` instances, whatever the interleaving of their commands, or of their steps and
of the beats the host issues to each, every instance ends as it would alone, with its own commands, or steps and beats, in
their order; and all start in the power-on state, with empty channels. That an instance that is refused stays refused while
the others go on is the model's choice: notes/assumptions/9.md. -/
def Obligations.InstancesAreIndependent : Prop :=
  (∀ (n : Nat) (sys : System n) (sched : List (Fin n × Instr)) (k : Fin n),
    (sys.run sched)[k.val] = andThen sys[k.val] (runAll (own k sched))) ∧
  (∀ (n : Nat) (sys : System n) (sched : List (Fin n × Event)) (k : Fin n),
    (sys.runEvents sched)[k.val] = andThen sys[k.val] (runEvents (own k sched))) ∧
  (∀ (c : Config) (k : Fin c.nInstances), ∃ s, (System.powerOn c)[k.val] = .next s ∧ s.arch = ArchState.initial ∧
    s.seq = .idle ∧ s.cmd = [] ∧ s.rsp = [] ∧ s.policy = c.lenOverflowPolicy)
end

