-- ==== Sys2Proof/Laws/State.lean ====
section
/-! SUPPORT. One lemma per field for each register operation: what it writes, and that it leaves every other register
alone. With these no later proof unfolds a record update. -/

namespace Sys2Proof.Machine.State

variable (s : State)

@[simp] theorem goto_v (p : Phase) : (s.goto p).v = s.v := rfl
@[simp] theorem goto_buf (p : Phase) : (s.goto p).buf = s.buf := rfl
@[simp] theorem goto_bufLen (p : Phase) : (s.goto p).bufLen = s.bufLen := rfl
@[simp] theorem goto_len (p : Phase) : (s.goto p).len = s.len := rfl
@[simp] theorem goto_w (p : Phase) : (s.goto p).w = s.w := rfl
@[simp] theorem goto_w' (p : Phase) : (s.goto p).w' = s.w' := rfl
@[simp] theorem goto_work (p : Phase) : (s.goto p).work = s.work := rfl
@[simp] theorem goto_mix (p : Phase) : (s.goto p).mix = s.mix := rfl
@[simp] theorem goto_j (p : Phase) : (s.goto p).j = s.j := rfl
@[simp] theorem goto_l (p : Phase) : (s.goto p).l = s.l := rfl
@[simp] theorem goto_seq (p : Phase) : (s.goto p).seq = p := rfl
@[simp] theorem goto_cmd (p : Phase) : (s.goto p).cmd = s.cmd := rfl
@[simp] theorem goto_rsp (p : Phase) : (s.goto p).rsp = s.rsp := rfl
@[simp] theorem goto_policy (p : Phase) : (s.goto p).policy = s.policy := rfl
@[simp] theorem goto_draws (p : Phase) : (s.goto p).draws = s.draws := rfl

@[simp] theorem emit_v (r : Response) : (s.emit r).v = s.v := rfl
@[simp] theorem emit_buf (r : Response) : (s.emit r).buf = s.buf := rfl
@[simp] theorem emit_bufLen (r : Response) : (s.emit r).bufLen = s.bufLen := rfl
@[simp] theorem emit_len (r : Response) : (s.emit r).len = s.len := rfl
@[simp] theorem emit_w (r : Response) : (s.emit r).w = s.w := rfl
@[simp] theorem emit_w' (r : Response) : (s.emit r).w' = s.w' := rfl
@[simp] theorem emit_work (r : Response) : (s.emit r).work = s.work := rfl
@[simp] theorem emit_mix (r : Response) : (s.emit r).mix = s.mix := rfl
@[simp] theorem emit_j (r : Response) : (s.emit r).j = s.j := rfl
@[simp] theorem emit_l (r : Response) : (s.emit r).l = s.l := rfl
@[simp] theorem emit_seq (r : Response) : (s.emit r).seq = s.seq := rfl
@[simp] theorem emit_cmd (r : Response) : (s.emit r).cmd = s.cmd := rfl
@[simp] theorem emit_rsp (r : Response) : (s.emit r).rsp = s.rsp ++ [r] := rfl
@[simp] theorem emit_policy (r : Response) : (s.emit r).policy = s.policy := rfl
@[simp] theorem emit_draws (r : Response) : (s.emit r).draws = s.draws := rfl

@[simp] theorem deliver_v (cs : List Beat) : (s.deliver cs).v = s.v := rfl
@[simp] theorem deliver_buf (cs : List Beat) : (s.deliver cs).buf = s.buf := rfl
@[simp] theorem deliver_bufLen (cs : List Beat) : (s.deliver cs).bufLen = s.bufLen := rfl
@[simp] theorem deliver_len (cs : List Beat) : (s.deliver cs).len = s.len := rfl
@[simp] theorem deliver_w (cs : List Beat) : (s.deliver cs).w = s.w := rfl
@[simp] theorem deliver_w' (cs : List Beat) : (s.deliver cs).w' = s.w' := rfl
@[simp] theorem deliver_work (cs : List Beat) : (s.deliver cs).work = s.work := rfl
@[simp] theorem deliver_mix (cs : List Beat) : (s.deliver cs).mix = s.mix := rfl
@[simp] theorem deliver_j (cs : List Beat) : (s.deliver cs).j = s.j := rfl
@[simp] theorem deliver_l (cs : List Beat) : (s.deliver cs).l = s.l := rfl
@[simp] theorem deliver_seq (cs : List Beat) : (s.deliver cs).seq = s.seq := rfl
@[simp] theorem deliver_cmd (cs : List Beat) : (s.deliver cs).cmd = s.cmd ++ cs := rfl
@[simp] theorem deliver_rsp (cs : List Beat) : (s.deliver cs).rsp = s.rsp := rfl
@[simp] theorem deliver_policy (cs : List Beat) : (s.deliver cs).policy = s.policy := rfl
@[simp] theorem deliver_draws (cs : List Beat) : (s.deliver cs).draws = s.draws := rfl

@[simp] theorem dropBeat_v : (s.dropBeat).v = s.v := rfl
@[simp] theorem dropBeat_buf : (s.dropBeat).buf = s.buf := rfl
@[simp] theorem dropBeat_bufLen : (s.dropBeat).bufLen = s.bufLen := rfl
@[simp] theorem dropBeat_len : (s.dropBeat).len = s.len := rfl
@[simp] theorem dropBeat_w : (s.dropBeat).w = s.w := rfl
@[simp] theorem dropBeat_w' : (s.dropBeat).w' = s.w' := rfl
@[simp] theorem dropBeat_work : (s.dropBeat).work = s.work := rfl
@[simp] theorem dropBeat_mix : (s.dropBeat).mix = s.mix := rfl
@[simp] theorem dropBeat_j : (s.dropBeat).j = s.j := rfl
@[simp] theorem dropBeat_l : (s.dropBeat).l = s.l := rfl
@[simp] theorem dropBeat_seq : (s.dropBeat).seq = s.seq := rfl
@[simp] theorem dropBeat_cmd : (s.dropBeat).cmd = s.cmd.tail := rfl
@[simp] theorem dropBeat_rsp : (s.dropBeat).rsp = s.rsp := rfl
@[simp] theorem dropBeat_policy : (s.dropBeat).policy = s.policy := rfl
@[simp] theorem dropBeat_draws : (s.dropBeat).draws = s.draws := rfl

@[simp] theorem countByte_v : (s.countByte).v = s.v := rfl
@[simp] theorem countByte_buf : (s.countByte).buf = s.buf := rfl
@[simp] theorem countByte_bufLen : (s.countByte).bufLen = s.bufLen := rfl
@[simp] theorem countByte_len : (s.countByte).len = s.len + 1 := rfl
@[simp] theorem countByte_w : (s.countByte).w = s.w := rfl
@[simp] theorem countByte_w' : (s.countByte).w' = s.w' := rfl
@[simp] theorem countByte_work : (s.countByte).work = s.work := rfl
@[simp] theorem countByte_mix : (s.countByte).mix = s.mix := rfl
@[simp] theorem countByte_j : (s.countByte).j = s.j := rfl
@[simp] theorem countByte_l : (s.countByte).l = s.l := rfl
@[simp] theorem countByte_seq : (s.countByte).seq = s.seq := rfl
@[simp] theorem countByte_cmd : (s.countByte).cmd = s.cmd := rfl
@[simp] theorem countByte_rsp : (s.countByte).rsp = s.rsp := rfl
@[simp] theorem countByte_policy : (s.countByte).policy = s.policy := rfl
@[simp] theorem countByte_draws : (s.countByte).draws = s.draws := rfl

@[simp] theorem latchLength_v : (s.latchLength).v = s.v := rfl
@[simp] theorem latchLength_buf : (s.latchLength).buf = s.buf := rfl
@[simp] theorem latchLength_bufLen : (s.latchLength).bufLen = s.bufLen := rfl
@[simp] theorem latchLength_len : (s.latchLength).len = s.len := rfl
@[simp] theorem latchLength_w : (s.latchLength).w = s.w := rfl
@[simp] theorem latchLength_w' : (s.latchLength).w' = s.w' := rfl
@[simp] theorem latchLength_work : (s.latchLength).work = s.work := rfl
@[simp] theorem latchLength_mix : (s.latchLength).mix = s.mix := rfl
@[simp] theorem latchLength_j : (s.latchLength).j = s.j := rfl
@[simp] theorem latchLength_l : (s.latchLength).l = bitLength s.len := rfl
@[simp] theorem latchLength_seq : (s.latchLength).seq = s.seq := rfl
@[simp] theorem latchLength_cmd : (s.latchLength).cmd = s.cmd := rfl
@[simp] theorem latchLength_rsp : (s.latchLength).rsp = s.rsp := rfl
@[simp] theorem latchLength_policy : (s.latchLength).policy = s.policy := rfl
@[simp] theorem latchLength_draws : (s.latchLength).draws = s.draws := rfl

@[simp] theorem storeByte_v (b : Byte) : (s.storeByte b).v = s.v := rfl
@[simp] theorem storeByte_bufLen (b : Byte) : (s.storeByte b).bufLen = s.bufLen := rfl
@[simp] theorem storeByte_len (b : Byte) : (s.storeByte b).len = s.len := rfl
@[simp] theorem storeByte_w (b : Byte) : (s.storeByte b).w = s.w := rfl
@[simp] theorem storeByte_w' (b : Byte) : (s.storeByte b).w' = s.w' := rfl
@[simp] theorem storeByte_work (b : Byte) : (s.storeByte b).work = s.work := rfl
@[simp] theorem storeByte_mix (b : Byte) : (s.storeByte b).mix = s.mix := rfl
@[simp] theorem storeByte_j (b : Byte) : (s.storeByte b).j = s.j := rfl
@[simp] theorem storeByte_l (b : Byte) : (s.storeByte b).l = s.l := rfl
@[simp] theorem storeByte_seq (b : Byte) : (s.storeByte b).seq = s.seq := rfl
@[simp] theorem storeByte_cmd (b : Byte) : (s.storeByte b).cmd = s.cmd := rfl
@[simp] theorem storeByte_rsp (b : Byte) : (s.storeByte b).rsp = s.rsp := rfl
@[simp] theorem storeByte_policy (b : Byte) : (s.storeByte b).policy = s.policy := rfl
@[simp] theorem storeByte_draws (b : Byte) : (s.storeByte b).draws = s.draws := rfl

@[simp] theorem setBufLen_v (n : BitVec 6) : (s.setBufLen n).v = s.v := rfl
@[simp] theorem setBufLen_buf (n : BitVec 6) : (s.setBufLen n).buf = s.buf := rfl
@[simp] theorem setBufLen_bufLen (n : BitVec 6) : (s.setBufLen n).bufLen = n := rfl
@[simp] theorem setBufLen_len (n : BitVec 6) : (s.setBufLen n).len = s.len := rfl
@[simp] theorem setBufLen_w (n : BitVec 6) : (s.setBufLen n).w = s.w := rfl
@[simp] theorem setBufLen_w' (n : BitVec 6) : (s.setBufLen n).w' = s.w' := rfl
@[simp] theorem setBufLen_work (n : BitVec 6) : (s.setBufLen n).work = s.work := rfl
@[simp] theorem setBufLen_mix (n : BitVec 6) : (s.setBufLen n).mix = s.mix := rfl
@[simp] theorem setBufLen_j (n : BitVec 6) : (s.setBufLen n).j = s.j := rfl
@[simp] theorem setBufLen_l (n : BitVec 6) : (s.setBufLen n).l = s.l := rfl
@[simp] theorem setBufLen_seq (n : BitVec 6) : (s.setBufLen n).seq = s.seq := rfl
@[simp] theorem setBufLen_cmd (n : BitVec 6) : (s.setBufLen n).cmd = s.cmd := rfl
@[simp] theorem setBufLen_rsp (n : BitVec 6) : (s.setBufLen n).rsp = s.rsp := rfl
@[simp] theorem setBufLen_policy (n : BitVec 6) : (s.setBufLen n).policy = s.policy := rfl
@[simp] theorem setBufLen_draws (n : BitVec 6) : (s.setBufLen n).draws = s.draws := rfl

@[simp] theorem toInitial_v : (s.toInitial).v = IV := rfl
@[simp] theorem toInitial_bufLen : (s.toInitial).bufLen = 0 := rfl
@[simp] theorem toInitial_len : (s.toInitial).len = 0 := rfl
@[simp] theorem toInitial_seq : (s.toInitial).seq = s.seq := rfl
@[simp] theorem toInitial_cmd : (s.toInitial).cmd = s.cmd := rfl
@[simp] theorem toInitial_rsp : (s.toInitial).rsp = s.rsp := rfl
@[simp] theorem toInitial_policy : (s.toInitial).policy = s.policy := rfl
@[simp] theorem toInitial_draws : (s.toInitial).draws = s.draws.next := rfl

@[simp] theorem emitDigest_v : (s.emitDigest).v = s.v := by simp only [State.emitDigest]
@[simp] theorem emitDigest_buf : (s.emitDigest).buf = s.buf := by simp only [State.emitDigest]
@[simp] theorem emitDigest_bufLen : (s.emitDigest).bufLen = s.bufLen := by simp only [State.emitDigest]
@[simp] theorem emitDigest_len : (s.emitDigest).len = s.len := by simp only [State.emitDigest]
@[simp] theorem emitDigest_w : (s.emitDigest).w = s.w := by simp only [State.emitDigest]
@[simp] theorem emitDigest_w' : (s.emitDigest).w' = s.w' := by simp only [State.emitDigest]
@[simp] theorem emitDigest_work : (s.emitDigest).work = s.work := by simp only [State.emitDigest]
@[simp] theorem emitDigest_mix : (s.emitDigest).mix = s.mix := by simp only [State.emitDigest]
@[simp] theorem emitDigest_j : (s.emitDigest).j = s.j := by simp only [State.emitDigest]
@[simp] theorem emitDigest_l : (s.emitDigest).l = s.l := by simp only [State.emitDigest]
@[simp] theorem emitDigest_seq : (s.emitDigest).seq = s.seq := by simp only [State.emitDigest]
@[simp] theorem emitDigest_cmd : (s.emitDigest).cmd = s.cmd := by simp only [State.emitDigest]
@[simp] theorem emitDigest_rsp : (s.emitDigest).rsp = s.rsp ++ (serialize s.v).toList.map digestBeat := by simp only [State.emitDigest]
@[simp] theorem emitDigest_policy : (s.emitDigest).policy = s.policy := by simp only [State.emitDigest]
@[simp] theorem emitDigest_draws : (s.emitDigest).draws = s.draws := by simp only [State.emitDigest]

@[simp] theorem loadw_v : (s.loadw).v = s.v := by simp only [State.loadw]
@[simp] theorem loadw_buf : (s.loadw).buf = s.buf := by simp only [State.loadw]
@[simp] theorem loadw_bufLen : (s.loadw).bufLen = s.bufLen := by simp only [State.loadw]
@[simp] theorem loadw_len : (s.loadw).len = s.len := by simp only [State.loadw]
@[simp] theorem loadw_w' : (s.loadw).w' = s.w' := by simp only [State.loadw]
@[simp] theorem loadw_work : (s.loadw).work = s.work := by simp only [State.loadw]
@[simp] theorem loadw_mix : (s.loadw).mix = s.mix := by simp only [State.loadw]
@[simp] theorem loadw_j : (s.loadw).j = s.j := by simp only [State.loadw]
@[simp] theorem loadw_l : (s.loadw).l = s.l := by simp only [State.loadw]
@[simp] theorem loadw_seq : (s.loadw).seq = s.seq := by simp only [State.loadw]
@[simp] theorem loadw_cmd : (s.loadw).cmd = s.cmd := by simp only [State.loadw]
@[simp] theorem loadw_rsp : (s.loadw).rsp = s.rsp := by simp only [State.loadw]
@[simp] theorem loadw_policy : (s.loadw).policy = s.policy := by simp only [State.loadw]
@[simp] theorem loadw_draws : (s.loadw).draws = s.draws := by simp only [State.loadw]

@[simp] theorem expand_v : (s.expand).v = s.v := by simp only [State.expand]
@[simp] theorem expand_buf : (s.expand).buf = s.buf := by simp only [State.expand]
@[simp] theorem expand_bufLen : (s.expand).bufLen = s.bufLen := by simp only [State.expand]
@[simp] theorem expand_len : (s.expand).len = s.len := by simp only [State.expand]
@[simp] theorem expand_w : (s.expand).w = expandW s.w := by simp only [State.expand]
@[simp] theorem expand_w' : (s.expand).w' = deriveW' (expandW s.w) := by simp only [State.expand]
@[simp] theorem expand_work : (s.expand).work = s.work := by simp only [State.expand]
@[simp] theorem expand_mix : (s.expand).mix = s.mix := by simp only [State.expand]
@[simp] theorem expand_j : (s.expand).j = s.j := by simp only [State.expand]
@[simp] theorem expand_l : (s.expand).l = s.l := by simp only [State.expand]
@[simp] theorem expand_seq : (s.expand).seq = s.seq := by simp only [State.expand]
@[simp] theorem expand_cmd : (s.expand).cmd = s.cmd := by simp only [State.expand]
@[simp] theorem expand_rsp : (s.expand).rsp = s.rsp := by simp only [State.expand]
@[simp] theorem expand_policy : (s.expand).policy = s.policy := by simp only [State.expand]
@[simp] theorem expand_draws : (s.expand).draws = s.draws := by simp only [State.expand]

@[simp] theorem initWork_v : (s.initWork).v = s.v := by simp only [State.initWork]
@[simp] theorem initWork_buf : (s.initWork).buf = s.buf := by simp only [State.initWork]
@[simp] theorem initWork_bufLen : (s.initWork).bufLen = s.bufLen := by simp only [State.initWork]
@[simp] theorem initWork_len : (s.initWork).len = s.len := by simp only [State.initWork]
@[simp] theorem initWork_w : (s.initWork).w = s.w := by simp only [State.initWork]
@[simp] theorem initWork_w' : (s.initWork).w' = s.w' := by simp only [State.initWork]
@[simp] theorem initWork_work : (s.initWork).work = loadWork s.v := by simp only [State.initWork]
@[simp] theorem initWork_mix : (s.initWork).mix = s.mix := by simp only [State.initWork]
@[simp] theorem initWork_j : (s.initWork).j = 0 := by simp only [State.initWork]
@[simp] theorem initWork_l : (s.initWork).l = s.l := by simp only [State.initWork]
@[simp] theorem initWork_seq : (s.initWork).seq = s.seq := by simp only [State.initWork]
@[simp] theorem initWork_cmd : (s.initWork).cmd = s.cmd := by simp only [State.initWork]
@[simp] theorem initWork_rsp : (s.initWork).rsp = s.rsp := by simp only [State.initWork]
@[simp] theorem initWork_policy : (s.initWork).policy = s.policy := by simp only [State.initWork]
@[simp] theorem initWork_draws : (s.initWork).draws = s.draws := by simp only [State.initWork]

@[simp] theorem round_v : (s.round).v = s.v := by simp only [State.round]
@[simp] theorem round_buf : (s.round).buf = s.buf := by simp only [State.round]
@[simp] theorem round_bufLen : (s.round).bufLen = s.bufLen := by simp only [State.round]
@[simp] theorem round_len : (s.round).len = s.len := by simp only [State.round]
@[simp] theorem round_w : (s.round).w = s.w := by simp only [State.round]
@[simp] theorem round_w' : (s.round).w' = s.w' := by simp only [State.round]
@[simp] theorem round_j : (s.round).j = s.j := by simp only [State.round]
@[simp] theorem round_l : (s.round).l = s.l := by simp only [State.round]
@[simp] theorem round_seq : (s.round).seq = s.seq := by simp only [State.round]
@[simp] theorem round_cmd : (s.round).cmd = s.cmd := by simp only [State.round]
@[simp] theorem round_rsp : (s.round).rsp = s.rsp := by simp only [State.round]
@[simp] theorem round_policy : (s.round).policy = s.policy := by simp only [State.round]
@[simp] theorem round_draws : (s.round).draws = s.draws := by simp only [State.round]

@[simp] theorem nextRound_v : (s.nextRound).v = s.v := rfl
@[simp] theorem nextRound_buf : (s.nextRound).buf = s.buf := rfl
@[simp] theorem nextRound_bufLen : (s.nextRound).bufLen = s.bufLen := rfl
@[simp] theorem nextRound_len : (s.nextRound).len = s.len := rfl
@[simp] theorem nextRound_w : (s.nextRound).w = s.w := rfl
@[simp] theorem nextRound_w' : (s.nextRound).w' = s.w' := rfl
@[simp] theorem nextRound_work : (s.nextRound).work = s.work := rfl
@[simp] theorem nextRound_mix : (s.nextRound).mix = s.mix := rfl
@[simp] theorem nextRound_j : (s.nextRound).j = s.j + 1 := rfl
@[simp] theorem nextRound_l : (s.nextRound).l = s.l := rfl
@[simp] theorem nextRound_seq : (s.nextRound).seq = s.seq := rfl
@[simp] theorem nextRound_cmd : (s.nextRound).cmd = s.cmd := rfl
@[simp] theorem nextRound_rsp : (s.nextRound).rsp = s.rsp := rfl
@[simp] theorem nextRound_policy : (s.nextRound).policy = s.policy := rfl
@[simp] theorem nextRound_draws : (s.nextRound).draws = s.draws := rfl

@[simp] theorem feedfwd_v : (s.feedfwd).v = feedForward s.v s.work := by simp only [State.feedfwd]
@[simp] theorem feedfwd_buf : (s.feedfwd).buf = s.buf := by simp only [State.feedfwd]
@[simp] theorem feedfwd_bufLen : (s.feedfwd).bufLen = s.bufLen := by simp only [State.feedfwd]
@[simp] theorem feedfwd_len : (s.feedfwd).len = s.len := by simp only [State.feedfwd]
@[simp] theorem feedfwd_w : (s.feedfwd).w = s.w := by simp only [State.feedfwd]
@[simp] theorem feedfwd_w' : (s.feedfwd).w' = s.w' := by simp only [State.feedfwd]
@[simp] theorem feedfwd_work : (s.feedfwd).work = s.work := by simp only [State.feedfwd]
@[simp] theorem feedfwd_mix : (s.feedfwd).mix = s.mix := by simp only [State.feedfwd]
@[simp] theorem feedfwd_j : (s.feedfwd).j = s.j := by simp only [State.feedfwd]
@[simp] theorem feedfwd_l : (s.feedfwd).l = s.l := by simp only [State.feedfwd]
@[simp] theorem feedfwd_seq : (s.feedfwd).seq = s.seq := by simp only [State.feedfwd]
@[simp] theorem feedfwd_cmd : (s.feedfwd).cmd = s.cmd := by simp only [State.feedfwd]
@[simp] theorem feedfwd_rsp : (s.feedfwd).rsp = s.rsp := by simp only [State.feedfwd]
@[simp] theorem feedfwd_policy : (s.feedfwd).policy = s.policy := by simp only [State.feedfwd]
@[simp] theorem feedfwd_draws : (s.feedfwd).draws = s.draws := by simp only [State.feedfwd]

/-- A state is its fields: what is left to show after the field lemmas. -/
theorem ext_fields {s t : State} (hv : s.v = t.v) (hbuf : s.buf = t.buf) (hbl : s.bufLen = t.bufLen) (hlen : s.len = t.len)
    (hw : s.w = t.w) (hw' : s.w' = t.w') (hwork : s.work = t.work) (hmix : s.mix = t.mix) (hj : s.j = t.j) (hl : s.l = t.l)
    (hseq : s.seq = t.seq) (hcmd : s.cmd = t.cmd) (hrsp : s.rsp = t.rsp) (hpol : s.policy = t.policy)
    (hdr : s.draws = t.draws) : s = t := by
  cases s; cases t; simp_all

end Sys2Proof.Machine.State
end

