-- ==== Sys2Proof/Laws/Operands.lean ====
section
/-! SUPPORT. What the byte-order conversions, the memory primitives and the response beats do. -/

namespace Sys2Proof.Machine

/-- A one-byte store sets that byte and no other. -/
theorem memWrite_one (buf : Block) (addr : Nat) (b : Byte) (h : addr + 1 ≤ 64) :
    memWrite buf addr 1 b h = buf.set addr b (by omega) := by
  have hb : BitVec.extractLsb' 0 8 b = b := by simp
  simp only [memWrite, Nat.add_zero]
  exact congrArg (fun x => buf.set addr x (by omega)) hb

/-- A four-byte read is the big-endian word of the four bytes. -/
theorem memRead_four (buf : Block) (addr : Nat) (h : addr + 4 ≤ 64) :
    memRead buf addr 4 h = be32Inv (buf[addr]) (buf[addr + 1]) (buf[addr + 2]) (buf[addr + 3]) := by
  have h0 : ∀ b : Byte, (0#0 ++ b : BitVec 8) = b := fun b => BitVec.eq_of_toNat_eq <|
    (BitVec.toNat_append 0#0 b).trans (by simp)
  simp only [memRead, be32Inv, Nat.add_zero]
  exact congrArg (fun x : Byte => x ++ buf[addr + 1] ++ buf[addr + 2] ++ buf[addr + 3]) (h0 _)

/-- Message word `i` is made of bytes `4i` to `4i + 3` of the block. -/
theorem messageWord_eq (blk : Block) (i : Nat) (h : i < 16) :
    messageWord blk i h = be32Inv blk[4 * i] blk[4 * i + 1] blk[4 * i + 2] blk[4 * i + 3] :=
  memRead_four blk (4 * i) (by omega)

/-- The stored byte is at the fill position and every other byte stays. -/
@[simp] theorem State.storeByte_buf (s : State) (b : Byte) :
    (s.storeByte b).buf = s.buf.set s.bufLen.toNat b (by have := s.bufLen.isLt; omega) :=
  memWrite_one s.buf s.bufLen.toNat b (by have := s.bufLen.isLt; omega)

/-- The low byte of a 9-bit beat is what was appended to its top bit. -/
theorem low_of_append (k : BitVec 1) (b : Byte) : ((k ++ b : Response).extractLsb' 0 8) = b := by
  apply BitVec.eq_of_toNat_eq
  have h : (k ++ b : Response).toNat = k.toNat <<< 8 ||| b.toNat := BitVec.toNat_append k b
  have hb := b.isLt
  rw [BitVec.extractLsb'_toNat, h, Nat.shiftRight_zero, Nat.shiftLeft_eq, Nat.mul_comm,
    ← Nat.two_pow_add_eq_or_of_lt hb]
  omega

@[simp] theorem Response.data_ackBeat (n : Byte) : Response.data (ackBeat n) = n := low_of_append 0#1 n

@[simp] theorem Response.data_digestBeat (b : Byte) : Response.data (digestBeat b) = b := low_of_append 1#1 b

end Sys2Proof.Machine
end

