-- ==== Sys2Proof/Laws/Compress.lean ====
section
/-! SUPPORT. What each step of the compression function does, and COMPRESS as a whole: it turns `V` into
`CF V BUF`, fills the transient registers with values that depend on `V` and `BUF` alone, and writes nothing else. -/

namespace Sys2Proof.Machine

/-! ### The message schedule -/

theorem loadWords_low (w : Schedule) (blk : Block) (k : Nat) (h : k < 16) :
    (loadWords w blk)[k] = messageWord blk k h := by
  simp [loadWords, h]

theorem loadWords_high (w : Schedule) (blk : Block) (k : Nat) (h : 16 ≤ k) (hk : k < 68) :
    (loadWords w blk)[k] = w[k] := by
  simp [loadWords, Nat.not_lt.mpr h]

theorem expandSteps_succ (w : Schedule) (n : Nat) (h : n + 1 ≤ 52) :
    expandSteps w (n + 1) h = (expandSteps w n (by omega)).set (16 + n)
      (expandWord (expandSteps w n (by omega)) (16 + n) (by omega)) (by omega) := rfl

/-- `n` steps write only `W[16..15+n]`. -/
theorem expandSteps_other (w : Schedule) (n : Nat) (h : n ≤ 52) (k : Nat) (hk : k < 68) (hout : k < 16 ∨ 16 + n ≤ k) :
    (expandSteps w n h)[k] = w[k] := by
  induction n with
  | zero => rfl
  | succ n ih =>
    rw [expandSteps_succ, Vector.getElem_set_ne _ _ (by omega)]
    exact ih (by omega) (by omega)

/-- A word once written is not written again. -/
theorem expandSteps_stable (w : Schedule) (n m : Nat) (h : n + m ≤ 52) (k : Nat) (hk : k < 16 + n) :
    (expandSteps w (n + m) h)[k] = (expandSteps w n (by omega))[k] := by
  induction m with
  | zero => rfl
  | succ m ih =>
    change (expandSteps w (n + m + 1) h)[k] = _
    rw [expandSteps_succ, Vector.getElem_set_ne _ _ (by omega)]
    exact ih (by omega)

/-- The expansion leaves `W[0..15]`. -/
theorem expandW_low (w : Schedule) (k : Nat) (h : k < 16) : (expandW w)[k] = w[k] :=
  expandSteps_other w 52 (by omega) k (by omega) (.inl h)

/-- The recurrence holds of the finished schedule (43_compression.md R125). -/
theorem expandW_high (w : Schedule) (j : Nat) (h : 16 ≤ j ∧ j < 68) :
    (expandW w)[j] = expandWord (expandW w) j h := by
  obtain ⟨n, rfl⟩ : ∃ n, j = 16 + n := ⟨j - 16, by omega⟩
  have stable : ∀ k (hk : k < 16 + n), (expandW w)[k] = (expandSteps w n (by omega))[k] := by
    intro k hk
    have hs := expandSteps_stable w n (52 - n) (by omega) k hk
    simpa only [expandW, show n + (52 - n) = 52 by omega] using hs
  have now : (expandW w)[16 + n] = (expandSteps w (n + 1) (by omega))[16 + n] := by
    have hs := expandSteps_stable w (n + 1) (52 - (n + 1)) (by omega) (16 + n) (by omega)
    simpa only [expandW, show n + 1 + (52 - (n + 1)) = 52 by omega] using hs
  rw [now, expandSteps_succ, Vector.getElem_set_self]
  unfold expandWord
  rw [stable _ (by omega), stable _ (by omega), stable _ (by omega), stable _ (by omega), stable _ (by omega)]

/-- The finished schedule depends on the first sixteen words only. -/
theorem expandW_congr (w₁ w₂ : Schedule) (h : ∀ k (hk : k < 16), w₁[k] = w₂[k]) : expandW w₁ = expandW w₂ := by
  have all : ∀ n, ∀ k (hk : k < 68), k < n → (expandW w₁)[k] = (expandW w₂)[k] := by
    intro n
    induction n with
    | zero => intro k _ hk; omega
    | succ n ih =>
      intro k hk68 hk
      by_cases h16 : k < 16
      · rw [expandW_low _ _ h16, expandW_low _ _ h16, h k h16]
      · rw [expandW_high w₁ k ⟨by omega, hk68⟩, expandW_high w₂ k ⟨by omega, hk68⟩]
        unfold expandWord
        rw [ih _ _ (by omega), ih _ _ (by omega), ih _ _ (by omega), ih _ _ (by omega), ih _ _ (by omega)]
  exact Vector.ext fun k hk => all 68 k hk hk

/-- What a transient schedule register held before LOADW and EXPAND does not matter (10_state.md R21). -/
theorem expandW_loadWords (w : Schedule) (blk : Block) : expandW (loadWords w blk) = scheduleOf blk :=
  expandW_congr _ _ fun k hk => by rw [loadWords_low _ _ _ hk, loadWords_low _ _ _ hk]

theorem deriveW'_getElem (w : Schedule) (j : Nat) (h : j < 64) : (deriveW' w)[j] = w[j] ^^^ w[j + 4] := by
  simp [deriveW']

/-! ### The rounds -/

/-- One round writes `A` to `H` and the intermediates, as R128 says. -/
theorem State.round_eq (s : State) :
    s.round = { s with
      mix := roundMix s.work s.j (s.w[s.j.toNat]'(by have := s.j.isLt; omega)) s.w'[s.j.toNat]
      work := roundShift s.work (roundMix s.work s.j (s.w[s.j.toNat]'(by have := s.j.isLt; omega)) s.w'[s.j.toNat]) } := rfl

/-- The rounds write only `A` to `H`, the intermediates and the counter. -/
theorem State.rounds_frame (n : Nat) (s : State) : State.rounds n s =
    { s with work := (State.rounds n s).work, mix := (State.rounds n s).mix, j := (State.rounds n s).j } := by
  induction n generalizing s with
  | zero => rfl
  | succ n ih => unfold State.rounds; rw [ih]; rfl

/-- The intermediates of the last of `n + 1` rounds. -/
def mixAt (v : HashValue) (w : Schedule) (w' : Schedule2) (n : Nat) (h : n < 64) : MixRegs :=
  roundMix (workAfter v w w' n (by omega)) (BitVec.ofNat 6 n) w[n] w'[n]

theorem workAfter_zero (v : HashValue) (w : Schedule) (w' : Schedule2) : workAfter v w w' 0 (by omega) = loadWork v := rfl

theorem workAfter_succ (v : HashValue) (w : Schedule) (w' : Schedule2) (n : Nat) (h : n < 64) :
    workAfter v w w' (n + 1) h = roundShift (workAfter v w w' n (by omega)) (mixAt v w w' n h) := rfl

/-- A round at counter `n` on the registers that `n` rounds have left gives those of `n + 1` rounds. -/
theorem State.round_workAfter (s : State) (v : HashValue) (n : Nat) (h : n < 64) (hj : s.j = BitVec.ofNat 6 n)
    (hw : s.work = workAfter v s.w s.w' n (by omega)) :
    s.round = { s with work := workAfter v s.w s.w' (n + 1) h, mix := mixAt v s.w s.w' n h } := by
  have hn : s.j.toNat = n := by rw [hj, BitVec.toNat_ofNat]; omega
  have hmix : roundMix s.work s.j (s.w[s.j.toNat]'(by have := s.j.isLt; omega)) s.w'[s.j.toNat] = mixAt v s.w s.w' n h := by
    unfold mixAt
    simp only [hn, hw]
    exact congrArg (fun x => roundMix _ x _ _) hj
  rw [State.round_eq, hmix, workAfter_succ, hw]

/-- `n + 1` rounds from counter `k`. -/
theorem State.rounds_eq (n : Nat) (s : State) (v : HashValue) (k : Nat) (h : k + n < 64) (hj : s.j = BitVec.ofNat 6 k)
    (hw : s.work = workAfter v s.w s.w' k (by omega)) :
    State.rounds n s = { s with work := workAfter v s.w s.w' (k + n + 1) (by omega), mix := mixAt v s.w s.w' (k + n) h, j := BitVec.ofNat 6 (k + n) } := by
  induction n generalizing s k with
  | zero =>
    unfold State.rounds
    rw [State.round_workAfter s v k (by omega) hj hw]
    simp [← hj]
  | succ n ih =>
    unfold State.rounds
    have hr := State.round_workAfter s v k (by omega) hj hw
    have := ih s.round.nextRound (k + 1) (by omega)
      (by rw [hr]; simp [State.nextRound, hj, BitVec.ofNat_add]) (by rw [hr]; rfl)
    rw [this, hr]
    simp only [State.nextRound, show k + 1 + n = k + (n + 1) by omega]

/-! ### COMPRESS -/

/-- Everything COMPRESS does (43_compression.md R123, R133): `V` becomes `CF V BUF`, the transient registers hold the
schedule, the working registers and the intermediates of the last round, the counter stands at 63, all else stays. -/
theorem State.compress_eq (s : State) : s.compress = { s with
    v := CF s.v s.buf
    w := scheduleOf s.buf
    w' := deriveW' (scheduleOf s.buf)
    work := workAfter s.v (scheduleOf s.buf) (deriveW' (scheduleOf s.buf)) 64 (by omega)
    mix := mixAt s.v (scheduleOf s.buf) (deriveW' (scheduleOf s.buf)) 63 (by omega)
    j := 63 } := by
  have hr := State.rounds_eq 63 s.loadw.expand.initWork s.v 0 (by omega) (by simp) (by simp [workAfter_zero])
  unfold State.compress
  rw [hr]
  simp only [State.feedfwd, State.initWork, State.expand, State.loadw, expandW_loadWords, Nat.zero_add, CF]
  rfl

/-! COMPRESS field by field. The transient registers are not simp lemmas: few proofs want their values. -/

theorem State.compress_w (s : State) : s.compress.w = scheduleOf s.buf := by rw [State.compress_eq]
theorem State.compress_w' (s : State) : s.compress.w' = deriveW' (scheduleOf s.buf) := by rw [State.compress_eq]
theorem State.compress_work (s : State) : s.compress.work =
    workAfter s.v (scheduleOf s.buf) (deriveW' (scheduleOf s.buf)) 64 (by omega) := by rw [State.compress_eq]
theorem State.compress_mix (s : State) : s.compress.mix =
    mixAt s.v (scheduleOf s.buf) (deriveW' (scheduleOf s.buf)) 63 (by omega) := by rw [State.compress_eq]
theorem State.compress_j (s : State) : s.compress.j = 63 := by rw [State.compress_eq]

@[simp] theorem State.compress_v (s : State) : s.compress.v = CF s.v s.buf := by rw [State.compress_eq]
@[simp] theorem State.compress_buf (s : State) : s.compress.buf = s.buf := by rw [State.compress_eq]
@[simp] theorem State.compress_bufLen (s : State) : s.compress.bufLen = s.bufLen := by rw [State.compress_eq]
@[simp] theorem State.compress_len (s : State) : s.compress.len = s.len := by rw [State.compress_eq]
@[simp] theorem State.compress_l (s : State) : s.compress.l = s.l := by rw [State.compress_eq]
@[simp] theorem State.compress_seq (s : State) : s.compress.seq = s.seq := by rw [State.compress_eq]
@[simp] theorem State.compress_cmd (s : State) : s.compress.cmd = s.cmd := by rw [State.compress_eq]
@[simp] theorem State.compress_rsp (s : State) : s.compress.rsp = s.rsp := by rw [State.compress_eq]
@[simp] theorem State.compress_policy (s : State) : s.compress.policy = s.policy := by rw [State.compress_eq]
@[simp] theorem State.compress_draws (s : State) : s.compress.draws = s.draws := by rw [State.compress_eq]

end Sys2Proof.Machine
end

