-- ==== Sys2Proof/Laws/Buffer.lean ====
section
/-! SUPPORT. What PUSH does, and what a run of PUSHes does: the pending bytes and the pushed bytes, cut into blocks, are
compressed in order, and the rest stays pending. -/

namespace Sys2Proof.Machine

/-! ### Blocks of a byte string -/

theorem blockOf_getElem (m : List Byte) (i k : Nat) (h : k < 64) : (blockOf m i)[k] = m.getD (64 * i + k) 0#8 := by
  simp [blockOf]

/-- A whole block does not depend on what follows it. -/
theorem blockOf_append_left (m t : List Byte) (i : Nat) (h : 64 * (i + 1) ≤ m.length) : blockOf (m ++ t) i = blockOf m i := by
  refine Vector.ext fun k hk => ?_
  rw [blockOf_getElem, blockOf_getElem, List.getD_append _ _ _ _ (by omega)]

/-- Behind a whole number of blocks the blocks are those of the rest. -/
theorem blockOf_append_right (m t : List Byte) (q i : Nat) (h : m.length = 64 * q) : blockOf (m ++ t) (q + i) = blockOf t i := by
  refine Vector.ext fun k hk => ?_
  rw [blockOf_getElem, blockOf_getElem, List.getD_append_right _ _ _ _ (by omega)]
  congr 1
  omega

theorem hashBlocks_succ (v : HashValue) (m : List Byte) (n : Nat) :
    hashBlocks v m (n + 1) = CF (hashBlocks v m n) (blockOf m n) := rfl

/-- Whole blocks do not depend on what follows them. -/
theorem hashBlocks_append_left (v : HashValue) (m t : List Byte) (n : Nat) (h : 64 * n ≤ m.length) :
    hashBlocks v (m ++ t) n = hashBlocks v m n := by
  induction n with
  | zero => rfl
  | succ n ih => rw [hashBlocks_succ, hashBlocks_succ, ih (by omega), blockOf_append_left _ _ _ h]

/-- Hashing goes on behind a whole number of blocks. -/
theorem hashBlocks_append_right (v : HashValue) (m t : List Byte) (q n : Nat) (h : m.length = 64 * q) :
    hashBlocks v (m ++ t) (q + n) = hashBlocks (hashBlocks v m q) t n := by
  induction n with
  | zero => exact hashBlocks_append_left v m t q (by omega)
  | succ n ih => rw [← Nat.add_assoc, hashBlocks_succ, hashBlocks_succ, ih, blockOf_append_right _ _ _ _ h]

/-! ### PUSH -/

namespace State

theorem pending_length (s : State) : s.pending.length = s.bufLen.toNat := by
  have := s.bufLen.isLt
  simp [pending]
  omega

theorem push_room (s : State) (b : Byte) (h : s.bufLen ≠ 63#6) :
    s.push b = (s.storeByte b).setBufLen (s.bufLen + 1) := by
  simp [push, bufLast, h]

theorem push_full (s : State) (b : Byte) (h : s.bufLen = 63#6) : s.push b = (s.storeByte b).compress.setBufLen 0 := by
  simp [push, bufLast, h]

@[simp] theorem push_len (s : State) (b : Byte) : (s.push b).len = s.len := by unfold push; split <;> simp
@[simp] theorem push_l (s : State) (b : Byte) : (s.push b).l = s.l := by unfold push; split <;> simp
@[simp] theorem push_seq (s : State) (b : Byte) : (s.push b).seq = s.seq := by unfold push; split <;> simp
@[simp] theorem push_cmd (s : State) (b : Byte) : (s.push b).cmd = s.cmd := by unfold push; split <;> simp
@[simp] theorem push_rsp (s : State) (b : Byte) : (s.push b).rsp = s.rsp := by unfold push; split <;> simp
@[simp] theorem push_policy (s : State) (b : Byte) : (s.push b).policy = s.policy := by unfold push; split <;> simp
@[simp] theorem push_draws (s : State) (b : Byte) : (s.push b).draws = s.draws := by unfold push; split <;> simp

@[simp] theorem pushAll_len (s : State) (bs : List Byte) : (s.pushAll bs).len = s.len := by
  induction bs generalizing s with
  | nil => rfl
  | cons b bs ih => exact (ih _).trans (push_len s b)

@[simp] theorem pushAll_l (s : State) (bs : List Byte) : (s.pushAll bs).l = s.l := by
  induction bs generalizing s with
  | nil => rfl
  | cons b bs ih => exact (ih _).trans (push_l s b)

@[simp] theorem pushAll_seq (s : State) (bs : List Byte) : (s.pushAll bs).seq = s.seq := by
  induction bs generalizing s with
  | nil => rfl
  | cons b bs ih => exact (ih _).trans (push_seq s b)

@[simp] theorem pushAll_cmd (s : State) (bs : List Byte) : (s.pushAll bs).cmd = s.cmd := by
  induction bs generalizing s with
  | nil => rfl
  | cons b bs ih => exact (ih _).trans (push_cmd s b)

@[simp] theorem pushAll_rsp (s : State) (bs : List Byte) : (s.pushAll bs).rsp = s.rsp := by
  induction bs generalizing s with
  | nil => rfl
  | cons b bs ih => exact (ih _).trans (push_rsp s b)

@[simp] theorem pushAll_policy (s : State) (bs : List Byte) : (s.pushAll bs).policy = s.policy := by
  induction bs generalizing s with
  | nil => rfl
  | cons b bs ih => exact (ih _).trans (push_policy s b)

@[simp] theorem pushAll_draws (s : State) (bs : List Byte) : (s.pushAll bs).draws = s.draws := by
  induction bs generalizing s with
  | nil => rfl
  | cons b bs ih => exact (ih _).trans (push_draws s b)

/-- The fill count below 63 moves on without wrapping. -/
theorem bufLen_succ_toNat (n : BitVec 6) (h : n ≠ 63#6) : (n + 1).toNat = n.toNat + 1 := by
  have h1 := n.isLt
  have h2 : n.toNat ≠ 63 := fun e => h (BitVec.eq_of_toNat_eq e)
  rw [BitVec.toNat_add, show (1 : BitVec 6).toNat = 1 from rfl]
  omega

theorem take_set_append (buf : Block) (n : Nat) (b : Byte) (h : n < 64) :
    (buf.set n b h).toList.take (n + 1) = buf.toList.take n ++ [b] := by
  rw [Vector.toList_set, List.take_add_one, List.getElem?_set_self (by simpa using h), List.take_set_of_le (Nat.le_refl n)]
  rfl

/-- With room in the buffer PUSH makes the byte the last pending one. -/
theorem push_room_pending (s : State) (b : Byte) (h : s.bufLen ≠ 63#6) : (s.push b).pending = s.pending ++ [b] := by
  rw [push_room s b h]
  simp only [pending, setBufLen_buf, setBufLen_bufLen, storeByte_buf, bufLen_succ_toNat _ h]
  exact take_set_append s.buf s.bufLen.toNat b s.bufLen.isLt

/-- The buffer of 64 bytes is the pending bytes and the byte that completes the block. -/
theorem full_buffer (s : State) (b : Byte) (h : s.bufLen = 63#6) :
    (s.storeByte b).buf = blockOf (s.pending ++ [b]) 0 := by
  have h63 : s.bufLen.toNat = 63 := by rw [h]; rfl
  have hp : s.pending ++ [b] = (s.storeByte b).buf.toList := by
    have ht := take_set_append s.buf 63 b (by omega)
    rw [List.take_of_length_le (by simp)] at ht
    simp only [pending, storeByte_buf, h63]
    exact ht.symm
  refine Vector.ext fun k hk => ?_
  rw [blockOf_getElem, hp]
  simp [List.getD_eq_getElem?_getD, hk]

/-- With 63 bytes pending PUSH compresses the block they make with the byte, and nothing is left pending. -/
theorem push_full_v (s : State) (b : Byte) (h : s.bufLen = 63#6) : (s.push b).v = CF s.v (blockOf (s.pending ++ [b]) 0) := by
  rw [push_full s b h]
  simp only [setBufLen_v, compress_v, storeByte_v, full_buffer s b h]

theorem push_full_pending (s : State) (b : Byte) (h : s.bufLen = 63#6) : (s.push b).pending = [] := by
  rw [push_full s b h]
  simp [pending]

theorem push_full_bufLen (s : State) (b : Byte) (h : s.bufLen = 63#6) : (s.push b).bufLen = 0 := by
  rw [push_full s b h]
  simp

theorem push_room_bufLen (s : State) (b : Byte) (h : s.bufLen ≠ 63#6) : (s.push b).bufLen = s.bufLen + 1 := by
  rw [push_room s b h]
  simp

theorem push_room_v (s : State) (b : Byte) (h : s.bufLen ≠ 63#6) : (s.push b).v = s.v := by
  rw [push_room s b h]
  simp

/-- The fill count moves on by one modulo 64 (42_finalize_padding_serialization.md R120). -/
theorem push_bufLen (s : State) (b : Byte) : (s.push b).bufLen = s.bufLen + 1 := by
  by_cases h : s.bufLen = 63#6
  · rw [push_full_bufLen s b h, h]; rfl
  · exact push_room_bufLen s b h

/-! ### Runs of PUSHes -/

theorem pushAll_append (s : State) (bs cs : List Byte) : s.pushAll (bs ++ cs) = (s.pushAll bs).pushAll cs := by
  induction bs generalizing s with
  | nil => rfl
  | cons b bs ih => exact ih _

/-- Pushing bytes: with `M` the pending bytes and then the pushed ones, `V` goes through the whole blocks of `M`, and the
rest of `M` is pending (41_commands_reset_write.md R96, closed form). -/
theorem pushAll_spec (s : State) (bs : List Byte) :
    (s.pushAll bs).v = hashBlocks s.v (s.pending ++ bs) ((s.pending ++ bs).length / 64) ∧
    (s.pushAll bs).pending = (s.pending ++ bs).drop (64 * ((s.pending ++ bs).length / 64)) ∧
    (s.pushAll bs).bufLen.toNat = (s.pending ++ bs).length % 64 := by
  induction bs generalizing s with
  | nil =>
    have hl := s.pending_length
    have hlt := s.bufLen.isLt
    have h0 : s.pending.length / 64 = 0 := by omega
    simp only [List.append_nil, h0, pushAll]
    exact ⟨rfl, rfl, by omega⟩
  | cons b bs ih =>
    have hl := s.pending_length
    obtain ⟨hv, hp, hn⟩ := ih (s.push b)
    by_cases h : s.bufLen = 63#6
    · have h63 : s.pending.length = 63 := by rw [hl, h]; rfl
      have hP : (s.pending ++ [b]).length = 64 * 1 := by simp [h63]
      have hM : s.pending ++ b :: bs = (s.pending ++ [b]) ++ bs := by simp
      have hq : ((s.pending ++ [b]) ++ bs).length / 64 = 1 + bs.length / 64 := by rw [List.length_append, hP]; omega
      rw [push_full_pending s b h, List.nil_append] at hv hp hn
      refine ⟨?_, ?_, ?_⟩
      · rw [hM, hq, hashBlocks_append_right _ _ _ _ _ hP]
        exact hv.trans (by rw [push_full_v s b h]; rfl)
      · rw [hM, hq, show 64 * (1 + bs.length / 64) = (s.pending ++ [b]).length + 64 * (bs.length / 64) by rw [hP]; omega,
          List.drop_length_add_append]
        exact hp
      · rw [hM, List.length_append, hP]
        exact hn.trans (by omega)
    · have hM : s.pending ++ b :: bs = (s.push b).pending ++ bs := by rw [push_room_pending s b h]; simp
      rw [hM]
      exact ⟨hv.trans (by rw [push_room_v s b h]), hp, hn⟩

end State

end Sys2Proof.Machine
end

