-- ==== Sys2Proof/Laws/Finalize.lean ====
section
/-! SUPPORT. What the fill loop and the padding pipeline of FINAL do. -/

namespace Sys2Proof.Machine.State

theorem zeroFill_done (n : Nat) (s : State) (h : s.bufLen = 56#6) : State.zeroFill n s = s := by
  cases n with
  | zero => rfl
  | succ n => simp [zeroFill, atLengthField, h]

theorem zeroFill_push (n : Nat) (s : State) (h : s.bufLen ≠ 56#6) :
    State.zeroFill (n + 1) s = State.zeroFill n (s.push padFill) := by
  simp [zeroFill, atLengthField, h]

/-- The fill loop pushes as many zero bytes as it takes to reach `BUFLEN = 56`, given enough iterations. -/
theorem zeroFill_eq (n : Nat) (s : State) (h : (120 - s.bufLen.toNat) % 64 ≤ n) :
    State.zeroFill n s = s.pushAll (List.replicate ((120 - s.bufLen.toNat) % 64) padFill) := by
  induction n generalizing s with
  | zero =>
    rw [Nat.le_zero.mp h]
    rfl
  | succ n ih =>
    have hlt := s.bufLen.isLt
    by_cases h56 : s.bufLen = 56#6
    · rw [zeroFill_done _ _ h56, h56]
      rfl
    · have hne : s.bufLen.toNat ≠ 56 := fun e => h56 (BitVec.eq_of_toNat_eq e)
      have hp : (s.push padFill).bufLen.toNat = (s.bufLen.toNat + 1) % 64 := by
        rw [push_bufLen, BitVec.toNat_add]
        rfl
      have hk : (120 - s.bufLen.toNat) % 64 = (120 - (s.push padFill).bufLen.toNat) % 64 + 1 := by rw [hp]; omega
      rw [zeroFill_push _ _ h56, ih _ (by omega), hk, List.replicate_succ]
      rfl

/-- After the mark byte 63 iterations are enough (42_finalize_padding_serialization.md R120). -/
theorem zeroFill_63 (s : State) :
    State.zeroFill 63 s = s.pushAll (List.replicate ((120 - s.bufLen.toNat) % 64) padFill) :=
  zeroFill_eq 63 s (by omega)

@[simp] theorem zeroFill_len (n : Nat) (s : State) : (State.zeroFill n s).len = s.len := by
  induction n generalizing s with
  | zero => rfl
  | succ n ih => unfold zeroFill; split <;> simp [ih]

@[simp] theorem zeroFill_l (n : Nat) (s : State) : (State.zeroFill n s).l = s.l := by
  induction n generalizing s with
  | zero => rfl
  | succ n ih => unfold zeroFill; split <;> simp [ih]

@[simp] theorem zeroFill_seq (n : Nat) (s : State) : (State.zeroFill n s).seq = s.seq := by
  induction n generalizing s with
  | zero => rfl
  | succ n ih => unfold zeroFill; split <;> simp [ih]

@[simp] theorem zeroFill_cmd (n : Nat) (s : State) : (State.zeroFill n s).cmd = s.cmd := by
  induction n generalizing s with
  | zero => rfl
  | succ n ih => unfold zeroFill; split <;> simp [ih]

@[simp] theorem zeroFill_rsp (n : Nat) (s : State) : (State.zeroFill n s).rsp = s.rsp := by
  induction n generalizing s with
  | zero => rfl
  | succ n ih => unfold zeroFill; split <;> simp [ih]

@[simp] theorem zeroFill_policy (n : Nat) (s : State) : (State.zeroFill n s).policy = s.policy := by
  induction n generalizing s with
  | zero => rfl
  | succ n ih => unfold zeroFill; split <;> simp [ih]

@[simp] theorem zeroFill_draws (n : Nat) (s : State) : (State.zeroFill n s).draws = s.draws := by
  induction n generalizing s with
  | zero => rfl
  | succ n ih => unfold zeroFill; split <;> simp [ih]

@[simp] theorem padMessage_len (s : State) : s.padMessage.len = s.len := by simp [padMessage]
@[simp] theorem padMessage_l (s : State) : s.padMessage.l = s.l := by simp [padMessage]
@[simp] theorem padMessage_seq (s : State) : s.padMessage.seq = s.seq := by simp [padMessage]
@[simp] theorem padMessage_cmd (s : State) : s.padMessage.cmd = s.cmd := by simp [padMessage]
@[simp] theorem padMessage_rsp (s : State) : s.padMessage.rsp = s.rsp := by simp [padMessage]
@[simp] theorem padMessage_policy (s : State) : s.padMessage.policy = s.policy := by simp [padMessage]
@[simp] theorem padMessage_draws (s : State) : s.padMessage.draws = s.draws := by simp [padMessage]

end Sys2Proof.Machine.State
end

