-- ==== Sys2Proof/Laws/Step.lean ====
section
/-! SUPPORT. What a step and each meaning answer, said once. -/

namespace Sys2Proof.Machine

theorem exec_reset (s : State) : exec .reset s = .next (s.toInitial.goto .idle) := rfl

theorem exec_wbyte_in (b : Byte) (s : State) (h : s.lengthInDomain 1 = true) : exec (.wbyte b) s = .next (s.absorb b) := by
  show execWbyte b s = _
  rw [execWbyte, if_pos h]

theorem exec_wbyte_out (b : Byte) (s : State) (h : s.lengthInDomain 1 = false) :
    exec (.wbyte b) s = .refused .lengthOverflow := by
  show execWbyte b s = _
  rw [execWbyte, h]
  rfl

theorem exec_final (s : State) :
    exec .final s = .next (s.latchLength.padMessage.emitDigest.toInitial.goto .idle) := rfl

/-- In IDLE with an empty channel the core waits. -/
theorem step_waiting (s : State) (hi : s.seq = .idle) (hc : s.cmd = []) : step s = .next s := by
  simp only [step, hi, State.headBeat, hc, List.head?_nil]

/-- In IDLE the beat at the head is consumed and its command runs. -/
theorem step_command (s : State) (c : Beat) (cs : List Beat) (i : Instr) (hi : s.seq = .idle) (hc : s.cmd = c :: cs)
    (hd : decode c = .ok i) : step s = exec i s.dropBeat := by
  simp only [step, hi, State.headBeat, hc, List.head?_cons, hd]

/-- In IDLE a reserved beat at the head is refused. -/
theorem step_reserved (s : State) (c r : Beat) (cs : List Beat) (hi : s.seq = .idle) (hc : s.cmd = c :: cs)
    (hd : decode c = .error (.reserved r)) : step s = .refused (.reservedBeat r) := by
  simp only [step, hi, State.headBeat, hc, List.head?_cons, hd]

/-- Inside a command a step is one micro-step. -/
theorem step_busy (s : State) (h : s.seq ≠ .idle) : step s = .next s.micro := by
  unfold step
  split
  · contradiction
  · rfl

end Sys2Proof.Machine
end

