-- ==== Sys2Proof/Laws/Absorb.lean ====
section
/-! SUPPORT. PUSH neither reads nor writes `LEN`, the sequencer, the channels or `L`, so it commutes with the operations
on them; with that, a run of counted PUSHes is a run of PUSHes and a count. -/

namespace Sys2Proof.Machine.State

/-- The length domain in the words of 10_state.md R19. -/
theorem lengthInDomain_iff (s : State) (n : Nat) :
    s.lengthInDomain n = true ↔ (s.policy = .refuse → s.len.toNat + n < 2 ^ 61) := by
  unfold lengthInDomain lenBound
  cases s.policy <;> simp

theorem push_countByte (s : State) (b : Byte) : s.countByte.push b = (s.push b).countByte := by
  by_cases h : s.bufLen = 63#6
  · rw [push_full s b h, push_full s.countByte b h]
    apply ext_fields <;> simp [compress_eq]
  · rw [push_room s b h, push_room s.countByte b h]
    rfl

theorem push_goto (s : State) (p : Phase) (b : Byte) : (s.goto p).push b = (s.push b).goto p := by
  by_cases h : s.bufLen = 63#6
  · rw [push_full s b h, push_full (s.goto p) b h]
    apply ext_fields <;> simp [compress_eq]
  · rw [push_room s b h, push_room (s.goto p) b h]
    rfl

theorem push_emit (s : State) (r : Response) (b : Byte) : (s.emit r).push b = (s.push b).emit r := by
  by_cases h : s.bufLen = 63#6
  · rw [push_full s b h, push_full (s.emit r) b h]
    apply ext_fields <;> simp [compress_eq]
  · rw [push_room s b h, push_room (s.emit r) b h]
    rfl

theorem pushAll_countByte (s : State) (bs : List Byte) : s.countByte.pushAll bs = (s.pushAll bs).countByte := by
  induction bs generalizing s with
  | nil => rfl
  | cons b bs ih =>
    show (s.countByte.push b).pushAll bs = ((s.push b).pushAll bs).countByte
    rw [push_countByte, ih]

theorem pushAll_goto (s : State) (p : Phase) (bs : List Byte) : (s.goto p).pushAll bs = (s.pushAll bs).goto p := by
  induction bs generalizing s with
  | nil => rfl
  | cons b bs ih =>
    show ((s.goto p).push b).pushAll bs = ((s.push b).pushAll bs).goto p
    rw [push_goto, ih]

/-- Absorbing bytes is pushing them and adding their number to `LEN`. -/
theorem absorbAll_eq (s : State) (bs : List Byte) :
    s.absorbAll bs = { s.pushAll bs with len := s.len + BitVec.ofNat 64 bs.length } := by
  induction bs generalizing s with
  | nil => simp [absorbAll, pushAll]
  | cons b bs ih =>
    have hlen : s.len + 1 + BitVec.ofNat 64 bs.length = s.len + BitVec.ofNat 64 (b :: bs).length := by
      rw [List.length_cons, Nat.add_comm bs.length 1, BitVec.ofNat_add, BitVec.add_assoc]
      rfl
    show (s.countByte.push b).absorbAll bs = _
    rw [ih, push_countByte, pushAll_countByte]
    simp only [countByte_len, push_len, hlen]
    rfl

theorem absorbAll_append (s : State) (bs cs : List Byte) : s.absorbAll (bs ++ cs) = (s.absorbAll bs).absorbAll cs := by
  induction bs generalizing s with
  | nil => rfl
  | cons b bs ih => exact ih _

theorem absorb_eq (s : State) (b : Byte) : s.absorb b = ((s.countByte.push b).emit (ackBeat 1)).goto .idle := rfl

/-- What absorbing one byte does to the registers that are read between commands. -/
theorem absorb_fields (s : State) (b : Byte) :
    (s.absorb b).v = (s.push b).v ∧ (s.absorb b).pending = (s.push b).pending ∧ (s.absorb b).bufLen = s.bufLen + 1 ∧
    (s.absorb b).len = s.len + 1 ∧ (s.absorb b).rsp = s.rsp ++ [ackBeat 1] ∧ (s.absorb b).seq = .idle ∧
    (s.absorb b).cmd = s.cmd ∧ (s.absorb b).policy = s.policy := by
  rw [absorb_eq, push_countByte]
  refine ⟨rfl, rfl, push_bufLen s b, ?_, ?_, rfl, ?_, ?_⟩ <;> simp

end Sys2Proof.Machine.State
end

