-- ==== Sys2Proof/Laws/PerInstr.lean ====
section
/-! SUPPORT. A statement made of every command, one lemma per constructor. -/

namespace Sys2Proof.Laws.Encoding

/-- The beat of a command is defined, decodes to the command, and is covered by exactly one row of the opcode table. -/
def Statement (i : Instr) : Prop :=
  (encode i).wellFormed = true ∧ decode (encode i) = .ok i ∧ (opcodeTable.filter fun r => r.covers (encode i)).length = 1

theorem wbyte (b : Byte) : Statement (.wbyte b) := by
  unfold Statement
  revert b
  decide

theorem reset : Statement .reset := by
  unfold Statement
  decide

theorem final : Statement .final := by
  unfold Statement
  decide

end Sys2Proof.Laws.Encoding
end

