-- ==== Sys2Proof/Laws/System.lean ====
section
/-! SUPPORT. What one instance's move does to a system, and the small lemmas of an interleaving. -/

namespace Sys2Proof.Machine

variable {n : Nat}

@[simp] theorem State.asCore_v (s : State) (k : Nat) : (s.asCore k).v = s.v := rfl
@[simp] theorem State.asCore_buf (s : State) (k : Nat) : (s.asCore k).buf = s.buf := rfl
@[simp] theorem State.asCore_bufLen (s : State) (k : Nat) : (s.asCore k).bufLen = s.bufLen := rfl
@[simp] theorem State.asCore_len (s : State) (k : Nat) : (s.asCore k).len = s.len := rfl
@[simp] theorem State.asCore_w (s : State) (k : Nat) : (s.asCore k).w = s.w := rfl
@[simp] theorem State.asCore_w' (s : State) (k : Nat) : (s.asCore k).w' = s.w' := rfl
@[simp] theorem State.asCore_work (s : State) (k : Nat) : (s.asCore k).work = s.work := rfl
@[simp] theorem State.asCore_mix (s : State) (k : Nat) : (s.asCore k).mix = s.mix := rfl
@[simp] theorem State.asCore_j (s : State) (k : Nat) : (s.asCore k).j = s.j := rfl
@[simp] theorem State.asCore_l (s : State) (k : Nat) : (s.asCore k).l = s.l := rfl
@[simp] theorem State.asCore_seq (s : State) (k : Nat) : (s.asCore k).seq = s.seq := rfl
@[simp] theorem State.asCore_cmd (s : State) (k : Nat) : (s.asCore k).cmd = s.cmd := rfl
@[simp] theorem State.asCore_rsp (s : State) (k : Nat) : (s.asCore k).rsp = s.rsp := rfl
@[simp] theorem State.asCore_policy (s : State) (k : Nat) : (s.asCore k).policy = s.policy := rfl

/-- Doing nothing after an outcome leaves the outcome. -/
@[simp] theorem andThen_next (o : Host.Outcome State Fault Refusal) : andThen o .next = o := by
  cases o <;> rfl

/-- The instance that moves goes where its move takes it. -/
theorem System.act_self (sys : System n) (k : Fin n) (f : State → Host.Outcome State Fault Refusal) :
    (sys.act k f)[k.val] = andThen sys[k.val] f := by
  simp [System.act]

/-- Every other instance stays (60_exceptions.md R153). -/
theorem System.act_other (sys : System n) (k k' : Fin n) (f : State → Host.Outcome State Fault Refusal) (h : k' ≠ k) :
    (sys.act k' f)[k.val] = sys[k.val] := by
  have : k'.val ≠ k.val := fun e => h (Fin.ext e)
  simp [System.act, this]

theorem own_cons_self {α : Type} (k : Fin n) (a : α) (rest : List (Fin n × α)) : own k ((k, a) :: rest) = a :: own k rest := by
  simp [own]

theorem own_cons_other {α : Type} (k k' : Fin n) (a : α) (rest : List (Fin n × α)) (h : k' ≠ k) :
    own k ((k', a) :: rest) = own k rest := by
  simp [own, h]

end Sys2Proof.Machine
end

