-- ==== Sys2Proof/Tests/Slice0.lean ====
section
/-! SUPPORT. The model's own tests: words of the encoding written out, ill-formed terms that the checks refuse, steps and
functions on the values of 95_test_vectors.md and 96_trace_abc.md, and for each statement with hypotheses a state and
operands that meet them all. -/

namespace Sys2Proof.Tests

open Sys2Proof Sys2Proof.Machine

/-! ### Helpers -/

/-- The reset state with `BUFLEN`, `LEN`, the policy and the first bytes of `BUF` given. -/
def mk (policy : LenOverflowPolicy) (bytes : List Byte) (len : BitVec 64) : State :=
  { State.reset with
    policy := policy
    buf := Vector.ofFn fun k : Fin 64 => bytes.getD k.val 0#8
    bufLen := BitVec.ofNat 6 bytes.length
    len := len }

/-- `s` with beats on the command channel. -/
def withBeats (s : State) (cs : List Beat) : State := { s with cmd := cs }

/-- A field of the next state. -/
def get {α : Type} (f : State → α) : Host.Outcome State Fault Refusal → Option α
  | .next t => some (f t)
  | .fault _ => none
  | .refused _ => none

/-- Whether an outcome is a next state. -/
def isNext (o : Host.Outcome State Fault Refusal) : Bool :=
  match o with
  | .next _ => true
  | .fault _ => false
  | .refused _ => false

/-- The reason of a refusal. -/
def refusal : Host.Outcome State Fault Refusal → Option Refusal
  | .next _ => none
  | .fault _ => none
  | .refused r => some r

/-- The three bytes `"abc"` pending. -/
def abc : State := mk .refuse [0x61#8, 0x62#8, 0x63#8] 3

/-- The start state of 95_test_vectors.md section 4.9: 63 zero bytes pending, `LEN = 2^61 - 1`. -/
def brim (policy : LenOverflowPolicy) : State := mk policy (List.replicate 63 0#8) 0x1fffffffffffffff#64

/-- 63 bytes `"a"` pending (95_test_vectors.md section 4.2, row 6). -/
def row6 : State := mk .refuse (List.replicate 63 0x61#8) 63

/-! ### Decoding: words written out from 30_encoding.md R54 and R56 to R59 -/

theorem test_decode_wbyte : decode 0b0001100001#10 = .ok (.wbyte 0x61#8) := by decide
theorem test_decode_wbyte_high : decode 0b0010000000#10 = .ok (.wbyte 0x80#8) := by decide
theorem test_decode_reset : decode 0b0100000000#10 = .ok .reset := by decide
theorem test_decode_final : decode 0b1000000000#10 = .ok .final := by decide
theorem test_decode_reserved_op : decode 0b1100000000#10 = .error (.reserved 0x300#10) := by decide
theorem test_decode_reserved_arg : decode 0b1010000000#10 = .error (.reserved 0x280#10) := by decide

/-- The opcode table's own numbering of the same words, and a number that is no beat. -/
theorem test_table_words :
    decodeTableWord 16 0x0ff = some (.wbyte 0xff#8) ∧ decodeTableWord 10 0x100 = some .reset ∧
    decodeTableWord 16 0x200 = some .final ∧ decodeTableWord 16 0x101 = none ∧ decodeTableWord 16 0x400 = none := by decide

/-- No two rows of the opcode table overlap, and the encoder's words lie in their rows. -/
theorem test_table_rows :
    ((List.range 1024).all fun n => (opcodeTable.filter fun r => r.covers (BitVec.ofNat 10 n)).length ≤ 1) = true ∧
    (opcodeTable.map fun r => r.covers 0x061#10) = [true, false, false] ∧
    (opcodeTable.map fun r => r.covers 0x100#10) = [false, true, false] ∧
    (opcodeTable.map fun r => r.covers 0x200#10) = [false, false, true] := by decide +kernel

/-- R70: the beats of `DIGEST "abc"`. -/
theorem test_digest_line :
    lineBeats (.digest [0x61#8, 0x62#8, 0x63#8]) = [0x100#10, 0x061#10, 0x062#10, 0x063#10, 0x200#10] := by decide

/-! ### Well-formedness: an ill-formed term for each check -/

theorem test_ill_formed_op : Beat.wellFormed 0x300#10 = false := by decide
theorem test_ill_formed_reset_arg : Beat.wellFormed 0x101#10 = false := by decide
theorem test_ill_formed_final_arg : Beat.wellFormed 0x2ff#10 = false := by decide
theorem test_well_formed_beats :
    Beat.wellFormed 0x0ff#10 = true ∧ Beat.wellFormed 0x100#10 = true ∧ Beat.wellFormed 0x200#10 = true := by decide
theorem test_ill_formed_config : Config.wellFormed { lenOverflowPolicy := .wrap, nInstances := 0 } = false := by decide
theorem test_default_config : Config.wellFormed Config.default = true := by decide

/-! ### Word functions and constants (95_test_vectors.md section 4.1) -/

theorem test_rotl : rotl 0x12345678#32 7 = 0x1a2b3c09#32 ∧ rotl 0x7a879d8a#32 33 = 0xf50f3b14#32 := by decide
theorem test_p0_p1 : P0 0x61626380#32 = 0x62a5a186#32 ∧ P1 0x12345678#32 = 0x05014549#32 := by decide
theorem test_ff : FF 15 0x12345678#32 0x9abcdef0#32 0x0f1e2d3c#32 = 0x8796a5b4#32 ∧
    FF 16 0x12345678#32 0x9abcdef0#32 0x0f1e2d3c#32 = 0x1a3c5e78#32 := by decide
theorem test_gg : GG 15 0x12345678#32 0x9abcdef0#32 0x0f1e2d3c#32 = 0x8796a5b4#32 ∧
    GG 16 0x12345678#32 0x9abcdef0#32 0x0f1e2d3c#32 = 0x1f3e7f74#32 := by decide
theorem test_tr : TR 15 = 0x228cbce6#32 ∧ TR 16 = 0x9d8a7a87#32 ∧ TR 33 = 0xf50f3b14#32 ∧ TR 47 = 0xcec53d43#32 := by decide
theorem test_add4 : add4 0xffffffff#32 0xffffffff#32 0xffffffff#32 0xffffffff#32 = 0xfffffffc#32 := by decide
theorem test_be64 : (be64 0x0123456789abcdef#64).toList = [0x01, 0x23, 0x45, 0x67, 0x89, 0xab, 0xcd, 0xef] := by decide

/-! ### The compression function (95_test_vectors.md sections 4.6 and 4.3; 96_trace_abc.md section 2) -/

set_option maxRecDepth 100000 in
theorem test_cf_zero : (CF (Vector.replicate 8 0#32) (Vector.replicate 64 0#8)).toList =
    [0x2762550f#32, 0x18134933#32, 0xba35ce4e#32, 0x0a757e65#32, 0x8c0e7205#32, 0xfe9e4ff6#32, 0x5ac5c88b#32,
      0xa3649ac2#32] := by decide +kernel

set_option maxRecDepth 100000 in
theorem test_cf_window_ones : (CFWindow IV (Vector.replicate 64 0xff#8)).toList =
    [0xf13f90de#32, 0xe115a7da#32, 0x7885bfce#32, 0xc1eff734#32, 0xba2bea7c#32, 0x066e56f6#32, 0x3bb7f9f7#32,
      0xe01b119f#32] := by decide +kernel

set_option maxRecDepth 100000 in
theorem test_schedule : (scheduleOf (blockOf (padded [0x61#8, 0x62#8, 0x63#8]) 0))[19] = 0x719c70ed#32 ∧
    (scheduleOf (blockOf (padded [0x61#8, 0x62#8, 0x63#8]) 0))[67] = 0xb99c0545#32 := by decide +kernel

theorem test_pad : (pad 55 0x1b8#64) = [0x80, 0, 0, 0, 0, 0, 0, 0x01, 0xb8] ∧ (pad 56 0x1c0#64).length = 72 := by
  decide

/-! ### One step of each command (95_test_vectors.md sections 3, 4.2 and 4.9) -/

/-- Row 1 of section 4.2, as a step that fetches the beat. -/
theorem test_step_wbyte :
    get (fun t => (t.v, t.pending, t.bufLen)) (step (State.reset.withFetchWord 16 0x061)) = some (IV, [0x61#8], 1) ∧
    get (fun t => (t.len, t.rsp, t.cmd)) (step (State.reset.withFetchWord 16 0x061)) = some (1, [0x001#9], []) := by
  decide +kernel

set_option maxRecDepth 100000 in
/-- Row 7 of section 4.2: the 64th byte. -/
theorem test_wbyte_fills_block :
    get (fun t => (t.v.toList, t.bufLen, t.len)) (exec (.wbyte 0x61#8) row6) = some
      ([0xa5136b61#32, 0x62610c3f#32, 0x9a9386e6#32, 0xdb0fe112#32, 0x30e6de4f#32, 0x89892d3b#32, 0x853b0db1#32,
        0xf25a078f#32], 0, 64) := by decide +kernel

/-- Row 11 of section 4.2, as a step that fetches the beat. -/
theorem test_step_reset :
    get (fun t => (t.v, t.pending, t.bufLen)) (step (abc.withFetchWord 16 0x100)) = some (IV, [], 0) ∧
    get (fun t => (t.len, t.rsp, t.cmd)) (step (abc.withFetchWord 16 0x100)) = some (0, [], []) := by decide +kernel

set_option maxRecDepth 100000 in
/-- The end of 96_trace_abc.md, as a step that fetches the beat: KAT2. -/
theorem test_step_final :
    get (fun t => t.rsp) (step (abc.withFetchWord 16 0x200)) = some
      [0x166, 0x1c7, 0x1f0, 0x1f4, 0x162, 0x1ee, 0x1ed, 0x1d9, 0x1d1, 0x1f2, 0x1d4, 0x16b, 0x1dc, 0x110, 0x1e4, 0x1e2,
        0x141, 0x167, 0x1c4, 0x187, 0x15c, 0x1f2, 0x1f7, 0x1a2, 0x129, 0x17d, 0x1a0, 0x12b, 0x18f, 0x14b, 0x1a8,
        0x1e0] := by decide +kernel

set_option maxRecDepth 100000 in
/-- Section 4.9, `FINAL` under `refuse` with the largest bit length: the digest's first and last word. -/
theorem test_final_largest_length :
    get (fun t => (t.rsp.take 4, t.rsp.drop 28)) (exec .final (brim .refuse)) = some
      ([0x11e, 0x19f, 0x13d, 0x1cb], [0x1c9, 0x19a, 0x1e9, 0x1b3]) := by decide +kernel

/-- Section 4.9: the byte that would make `LEN = 2^61`. -/
theorem test_length_refused : refusal (exec (.wbyte 0#8) (brim .refuse)) = some .lengthOverflow := by decide +kernel

set_option maxRecDepth 100000 in
theorem test_length_wraps :
    get (fun t => (t.v[0], t.bufLen, t.len)) (exec (.wbyte 0#8) (brim .wrap)) =
      some (0xa1203a40#32, 0, 0x2000000000000000#64) := by decide +kernel

/-- Program P7: a reserved beat. -/
theorem test_reserved_refused : refusal (step (State.reset.withFetchWord 16 0x300)) = some (.reservedBeat 0x300#10) := by
  decide +kernel

/-- One row of the transition tables: `F_MARK` on a buffer with room (42_finalize_padding_serialization.md R119). -/
theorem test_micro_mark :
    (abc.goto (.fMark false)).micro.seq = .fZero false ∧ (abc.goto (.fMark false)).micro.pending = [0x61, 0x62, 0x63, 0x80] := by
  decide +kernel

/-! ### Witnesses: states and operands that meet the hypotheses of each statement

`witness_<statement>`; a statement whose clauses speak of a range has one at each end. -/

/-- `abc` inside a message that `State.Inv` knows: the invariant holds of more than the reset state. -/
theorem abc_inv : abc.Inv :=
  ⟨rfl, [0x61#8, 0x62#8, 0x63#8], ⟨by decide, rfl, by decide, by decide, fun _ => by decide⟩⟩

/-- 63 pending bytes and the invariant. -/
theorem row6_inv : row6.Inv :=
  ⟨rfl, List.replicate 63 0x61#8, ⟨by decide, rfl, by decide, by decide, fun _ => by decide⟩⟩

theorem witness_DecodeAndEncodeAgree :
    decode 0x0ff#10 = .ok (.wbyte 0xff#8) ∧
    decodeAll [0x100#10, 0x061#10, 0x200#10] = .ok [.reset, .wbyte 0x61#8, .final] := by decide

theorem witness_ReservedBeatsAreThe766 : decode 0x101#10 = .error (.reserved 0x101#10) ∧
    decode 0x3ff#10 = .error (.reserved 0x3ff#10) := by decide

theorem witness_StepRunsTheDecodedCommand : ∃ (s : State) (c : Beat) (cs : List Beat) (i : Instr),
    s.seq = .idle ∧ s.cmd = c :: cs ∧ decode c = .ok i :=
  ⟨withBeats abc [0x200#10, 0x061#10], 0x200#10, [0x061#10], .final, rfl, rfl, by decide⟩

/-- Both ends of each of the three ranges. -/
theorem witness_ReservedBeatIsRefused : ∀ c ∈ [0x101#10, 0x1ff#10, 0x201#10, 0x2ff#10, 0x300#10, 0x3ff#10],
    (withBeats abc [c]).seq = .idle ∧ (withBeats abc [c]).cmd = c :: [] ∧
    ((0x101#10 ≤ c ∧ c ≤ 0x1ff#10) ∨ (0x201#10 ≤ c ∧ c ≤ 0x2ff#10) ∨ (0x300#10 ≤ c ∧ c ≤ 0x3ff#10)) :=
  fun c hc => ⟨rfl, rfl, by revert c; decide⟩

theorem witness_IdleCoreWaits : abc.seq = .idle ∧ abc.cmd = [] := ⟨rfl, rfl⟩

/-- Both refusals of `OnlyTwoRefusalsAndNoFault` occur. -/
theorem witness_OnlyTwoRefusalsAndNoFault :
    refusal (step (withBeats abc [0x2ff#10])) = some (.reservedBeat 0x2ff#10) ∧
    refusal (step (withBeats (brim .refuse) [0x000#10])) = some .lengthOverflow := by decide +kernel

/-- `StepsOnlyAppendAcksAndDigests`: waiting, the three commands, and a state inside a command. -/
theorem witness_StepsOnlyAppendAcksAndDigests :
    isNext (step abc) ∧ isNext (step (withBeats abc [0x100#10])) ∧ isNext (step (withBeats abc [0x0ff#10])) ∧
    isNext (step (withBeats abc [0x200#10])) ∧ isNext (step (abc.goto (.fSer 31))) := by decide

/-- The hypotheses of `OnlyResetsAndFullBlocksWriteV`: a step from IDLE that changes `V`. -/
theorem witness_OnlyResetsAndFullBlocksWriteV : ∃ s t : State, s.seq = .idle ∧ step s = .next t ∧ t.v ≠ s.v :=
  ⟨{ withBeats abc [0x100#10] with v := Vector.replicate 8 0#32 }, _, rfl, rfl, by decide⟩

/-- `WbyteEffect`, `PushStoresThenCompresses`: the largest length in the domain, with `BUFLEN = 62` and with 63, and the
largest `LEN` of all under `wrap`. -/
theorem witness_WbyteEffect :
    ((mk .refuse (List.replicate 62 0#8) 0x1ffffffffffffffe#64).policy = .refuse →
      (mk .refuse (List.replicate 62 0#8) 0x1ffffffffffffffe#64).len.toNat + 1 < 2 ^ 61) ∧
    (mk .refuse (List.replicate 62 0#8) 0x1ffffffffffffffe#64).bufLen ≠ 63#6 ∧
    (row6.policy = .refuse → row6.len.toNat + 1 < 2 ^ 61) ∧ row6.bufLen = 63#6 ∧
    ((mk .wrap (List.replicate 63 0#8) 0xffffffffffffffff#64).policy = .refuse →
      (mk .wrap (List.replicate 63 0#8) 0xffffffffffffffff#64).len.toNat + 1 < 2 ^ 61) := by decide

theorem witness_PushStoresThenCompresses : (mk .refuse (List.replicate 62 0#8) 62).bufLen ≠ 63#6 ∧ row6.bufLen = 63#6 := by
  decide

/-- `LengthOverflowPolicies` at the bound. -/
theorem witness_LengthOverflowPolicies :
    (brim .refuse).policy = .refuse ∧ 2 ^ 61 ≤ (brim .refuse).len.toNat + 1 ∧ (brim .wrap).policy = .wrap ∧
    [0x61#8] ≠ [] ∧ 2 ^ 61 ≤ (brim .refuse).len.toNat + [0x61#8].length ∧
    (0x1fffffffffffffff#64).toNat < 2 ^ 61 := by decide

theorem witness_EmptyWriteChangesNothing : (brim .refuse).seq = .idle := rfl

/-- `WriteClosedForm` with the longest write in the domain from this state, and with one that completes a block. -/
theorem witness_WriteClosedForm :
    ((mk .refuse [] 0x1ffffffffffffffd#64).policy = .refuse →
      (mk .refuse [] 0x1ffffffffffffffd#64).len.toNat + [0x61#8, 0x62#8].length < 2 ^ 61) ∧
    (row6.policy = .refuse → row6.len.toNat + [0x61#8, 0x62#8].length < 2 ^ 61) := by decide

theorem witness_StreamingEquivalence : row6.seq = .idle ∧
    (row6.policy = .refuse → row6.len.toNat + [[0x61#8], [], [0x62#8, 0x63#8]].flatten.length < 2 ^ 61) := by decide

/-- `BurstAgreesWithWrite`: a WRITE that runs and a WRITE that is refused. -/
theorem witness_BurstAgreesWithWrite : abc.seq = .idle ∧ (∃ t n, execWrite [0x61#8] abc = .next (t, n)) ∧
    (brim .refuse).seq = .idle ∧ ∃ r, execWrite [0x61#8] (brim .refuse) = .refused r :=
  ⟨rfl, ⟨_, _, rfl⟩, rfl, ⟨_, rfl⟩⟩

theorem witness_ByteLandsAtLengthMod64 : row6.Inv ∧ (row6.policy = .refuse → row6.len.toNat + 1 < 2 ^ 61) :=
  ⟨row6_inv, fun _ => by decide⟩

/-- `PaddingLengths` at the ends of its ranges. -/
theorem witness_PaddingLengths : (0 < 64 ∧ 0 ≤ 55) ∧ (55 < 64 ∧ 55 ≤ 55) ∧ (56 < 64 ∧ 56 ≤ 56) ∧ 63 < 64 ∧ 56 ≤ 63 := by decide

/-- `DigestLayout` at the ends of its index ranges. -/
theorem witness_DigestLayout : (0 < 8 ∧ 0 < 4) ∧ 7 < 8 ∧ 3 < 4 := by decide

theorem witness_WritesThenFinalComputeSM3 : State.reset.seq = .idle ∧ State.reset.arch = ArchState.initial ∧
    [[0x61#8], [], [0x62#8, 0x63#8]].flatten.length < 2 ^ 61 := ⟨rfl, by decide, by decide⟩

theorem witness_DigestBeatsComputeSM3 : abc.seq = .idle ∧ abc.cmd = [] ∧ [0x61#8, 0x62#8, 0x63#8].length < 2 ^ 61 :=
  ⟨rfl, rfl, by decide⟩

theorem witness_DigestCommandComputesSM3 : ([0x61#8, 0x62#8, 0x63#8] : List Byte).length < 2 ^ 61 := by decide

theorem witness_ReuseAfterFinal : ([] : List Byte).length < 2 ^ 61 := by decide

/-- `ScheduleWords` at the ends of its index ranges. -/
theorem witness_ScheduleWords : 15 < 16 ∧ (16 ≤ 16 ∧ 16 < 68) ∧ (16 ≤ 67 ∧ 67 < 68) ∧ 63 < 64 := by decide

theorem witness_RoundEffect : ({ abc with j := 63 } : State).j.toNat < 64 ∧ ({ abc with j := 15 } : State).j.toNat < 64 := by decide

/-- Two states that agree on `V` and `BUF` and differ elsewhere. -/
theorem witness_CompressIsAFunctionOfVAndBlock : ∃ s t : State, s.v = t.v ∧ s.buf = t.buf ∧ s ≠ t :=
  ⟨abc, { abc with len := 67 }, rfl, rfl, fun h => absurd (congrArg State.len h) (by decide)⟩

theorem witness_CompressTakes67MicroSteps : (row6.goto (.cLoad (.fLen 7))).seq = .cLoad (.fLen 7) := rfl

/-- `SequencerRefinesCommands`: a command that runs and one that is refused. -/
theorem witness_SequencerRefinesCommands : (brim .refuse).seq = .idle ∧ (∃ t, exec .final (brim .refuse) = .next t) ∧
    ∃ r, exec (.wbyte 0#8) (brim .refuse) = .refused r := ⟨rfl, ⟨_, rfl⟩, ⟨_, rfl⟩⟩

theorem witness_RotationArithmetic : 0 % 32 = 0 ∧ 32 % 32 = 0 := by decide

/-- `BooleanFunctionsBitByBit` and `RoundConstants` where their ranges meet. -/
theorem witness_BooleanFunctionsBitByBit : (15 : BitVec 6).toNat ≤ 15 ∧ 16 ≤ (16 : BitVec 6).toNat ∧ 0 < 32 ∧ 31 < 32 := by decide

theorem witness_RoundConstants : (15 : BitVec 6).toNat ≤ 15 ∧ 16 ≤ (16 : BitVec 6).toNat ∧ 15 < 16 := by decide

theorem witness_BigEndianWords : 0 < 16 ∧ 15 < 16 := by decide

/-- A block whose last eight bytes are `BE64(L)`. -/
theorem witness_LengthFieldWords : ∀ (k : Nat) (h : k < 8),
    (blockOf (List.replicate 56 0#8 ++ (be64 0x0123456789abcdef#64).toList) 0)[56 + k] = (be64 0x0123456789abcdef#64)[k] := by
  decide

/-- The last address of each width that the rules use, with a byte outside the stored ones. -/
theorem witness_MemoryPrimitives : 60 + 4 ≤ 64 ∧ 3 < 4 ∧ 59 < 64 ∧ (59 < 60 ∨ 60 + 4 ≤ 59) ∧ 63 + 1 ≤ 64 := by decide

/-- A state with the invariant, in the middle of a message and with 63 bytes pending, from which a step answers a next
state. -/
theorem witness_StepKeepsTheInvariant : (withBeats row6 [0x061#10]).Inv ∧ ∃ t, step (withBeats row6 [0x061#10]) = .next t :=
  ⟨⟨rfl, List.replicate 63 0x61#8, ⟨by decide, rfl, by decide, by decide, fun _ => by decide⟩⟩, ⟨_, rfl⟩⟩

theorem witness_FillCountIsLengthMod64 : abc.Inv ∧ abc.policy = .refuse := ⟨abc_inv, rfl⟩

/-- Two states with one architectural part and different stale bytes, transient registers and responses. -/
theorem witness_ArchitecturalStateDeterminesResponses : ∃ s t : State, s.arch = t.arch ∧ s.policy = t.policy ∧
    s.buf ≠ t.buf ∧ s.j ≠ t.j ∧ s.rsp ≠ t.rsp :=
  ⟨abc, { abc with buf := abc.buf.set 63 0xff#8, j := 5, rsp := [0x001#9] }, by decide, rfl, by decide, by decide, by decide⟩

end Sys2Proof.Tests
end

-- ==== The memory primitives ====
section
/-! What `memWrite` leaves at each byte and what `memRead` gives after it, at every width and address in range. -/

namespace Sys2Proof.Machine

/-- A field of a field is the field at the sum of the two positions. -/
theorem extractLsb'_extractLsb'_of_add_le {w : Nat} (x : BitVec w) (start start' len len' : Nat) (h : start + len ≤ len') :
    (x.extractLsb' start' len').extractLsb' start len = x.extractLsb' (start' + start) len := by
  ext i hi
  have hin : start + i < len' := by omega
  simp [hin, Nat.add_assoc]

/-- The store takes the low byte to the last address; the rest of the value goes before it. -/
theorem memWrite_succ (buf : Block) (addr n : Nat) (v : BitVec (8 * (n + 1))) (h : addr + (n + 1) ≤ 64) :
    memWrite buf addr (n + 1) v h =
      (memWrite buf addr n (v.extractLsb' 8 (8 * n)) (by omega)).set (addr + n) (v.extractLsb' 0 8) := rfl

/-- The read appends the byte at the last address at the low end. -/
theorem memRead_succ (buf : Block) (addr n : Nat) (h : addr + (n + 1) ≤ 64) :
    memRead buf addr (n + 1) h = memRead buf addr n (by omega) ++ buf[addr + n] := rfl

/-- The frame of a store. -/
theorem memWrite_getElem_outside (buf : Block) (addr n : Nat) (v : BitVec (8 * n)) (h : addr + n ≤ 64) (a : Nat)
    (ha : a < 64) (hout : a < addr ∨ addr + n ≤ a) : (memWrite buf addr n v h)[a] = buf[a] := by
  induction n with
  | zero => rfl
  | succ n ih =>
    rw [memWrite_succ, Vector.getElem_set_ne _ _ (by omega)]
    exact ih _ _ (by omega)

/-- The stored bytes are those of the value, the most significant at `addr`. -/
theorem memWrite_getElem_stored (buf : Block) (addr n : Nat) (v : BitVec (8 * n)) (h : addr + n ≤ 64) (k : Nat)
    (hk : k < n) : (memWrite buf addr n v h)[addr + k] = v.extractLsb' (8 * (n - 1 - k)) 8 := by
  induction n with
  | zero => omega
  | succ n ih =>
    rw [memWrite_succ]
    obtain hlt | rfl : k < n ∨ k = n := by omega
    · have hpos : 8 + 8 * (n - 1 - k) = 8 * (n + 1 - 1 - k) := by omega
      rw [Vector.getElem_set_ne _ _ (by omega), ih _ _ hlt, extractLsb'_extractLsb'_of_add_le _ _ _ _ _ (by omega), hpos]
    · simp

/-- A read depends on the bytes it covers and on no other. -/
theorem memRead_congr (buf buf' : Block) (addr n : Nat) (h : addr + n ≤ 64)
    (heq : ∀ (k : Nat) (hk : k < n), buf[addr + k] = buf'[addr + k]) :
    memRead buf addr n h = memRead buf' addr n h := by
  induction n with
  | zero => rfl
  | succ n ih =>
    rw [memRead_succ, memRead_succ, ih (by omega) fun k hk => heq k (by omega), heq n (by omega)]

/-- A byte set just past the bytes read does not reach them. -/
theorem memRead_set_after (buf : Block) (addr n : Nat) (b : Byte) (h : addr + n < 64) :
    memRead (buf.set (addr + n) b) addr n (by omega) = memRead buf addr n (by omega) :=
  memRead_congr _ _ _ _ _ fun _ _ => Vector.getElem_set_ne _ _ (by omega)

/-- Read after write: the store splits off the low byte, and the read appends it again. -/
theorem memRead_memWrite (buf : Block) (addr n : Nat) (v : BitVec (8 * n)) (h : addr + n ≤ 64) :
    memRead (memWrite buf addr n v h) addr n h = v := by
  induction n with
  | zero => exact BitVec.eq_of_zero_length rfl
  | succ n ih =>
    rw [memRead_succ, memWrite_succ, memRead_set_after _ _ _ _ (by omega), ih, Vector.getElem_set_self]
    exact BitVec.extractLsb'_append_extractLsb'

end Sys2Proof.Machine
end

-- ==== The obligations on the scope (00_scope.md) ====
section
namespace Sys2Proof.Machine

/-- Settles O44, by induction on the width: the store and the read peel off the same last byte. -/
theorem memoryPrimitives : Obligations.MemoryPrimitives := by
  unfold Obligations.MemoryPrimitives
  intro buf addr n v h
  exact ⟨memRead_memWrite buf addr n v h, memWrite_getElem_stored buf addr n v h,
    memWrite_getElem_outside buf addr n v h⟩

end Sys2Proof.Machine
end

-- ==== What the architectural state decides ====
section
/-! Each command as a function of the architectural state (10_state.md R20): what it makes of `V`, the pending bytes,
`BUFLEN` and `LEN`, and what it answers. No other register of the state it starts from enters. -/

namespace Sys2Proof.Machine

/-! ### Message bytes cut into whole blocks and a rest -/

/-- `CF` applied, from `v`, to the whole blocks of `m` in order (10_state.md R32). -/
def hashWhole (v : HashValue) (m : List Byte) : HashValue := hashBlocks v m (m.length / 64)

/-- The bytes of `m` behind its whole blocks (10_state.md R32). -/
def restOf (m : List Byte) : List Byte := m.drop (64 * (m.length / 64))

theorem exists_eq_blocks_append_restOf (m : List Byte) :
    ∃ bl, bl.length = 64 * (m.length / 64) ∧ m = bl ++ restOf m :=
  ⟨m.take (64 * (m.length / 64)), by rw [List.length_take]; omega, (List.take_append_drop _ _).symm⟩

section
variable {bl : List Byte} {q : Nat} (hbl : bl.length = 64 * q) (t : List Byte)
include hbl

theorem blocks_append_length_div : (bl ++ t).length / 64 = q + t.length / 64 := by
  rw [List.length_append, hbl]
  omega

theorem hashWhole_blocks_append (v : HashValue) : hashWhole v (bl ++ t) = hashWhole (hashBlocks v bl q) t := by
  rw [hashWhole, blocks_append_length_div hbl]
  exact hashBlocks_append_right v bl t q _ hbl

theorem restOf_blocks_append : restOf (bl ++ t) = restOf t := by
  rw [restOf, blocks_append_length_div hbl, Nat.mul_add, ← hbl]
  exact List.drop_length_add_append _

end

/-- More bytes meet the blocks already hashed and the rest, and nothing else of `m`. -/
theorem hashWhole_append (v : HashValue) (m bs : List Byte) :
    hashWhole v (m ++ bs) = hashWhole (hashWhole v m) (restOf m ++ bs) := by
  obtain ⟨bl, hbl, hm⟩ := exists_eq_blocks_append_restOf m
  have hv : hashWhole v m = hashBlocks v bl (m.length / 64) :=
    (congrArg (hashBlocks v · (m.length / 64)) hm).trans (hashBlocks_append_left v bl _ _ hbl.ge)
  have happ : m ++ bs = bl ++ (restOf m ++ bs) := by rw [← List.append_assoc, ← hm]
  rw [happ, hashWhole_blocks_append hbl, hv]

theorem restOf_append (m bs : List Byte) : restOf (m ++ bs) = restOf (restOf m ++ bs) := by
  obtain ⟨bl, hbl, hm⟩ := exists_eq_blocks_append_restOf m
  have happ : m ++ bs = bl ++ (restOf m ++ bs) := by rw [← List.append_assoc, ← hm]
  rw [happ, restOf_blocks_append hbl]

/-! ### The commands on the architectural state -/

/-- What one absorbed byte makes of the architectural state (41_commands_reset_write.md R95, R97). -/
def ArchState.absorb (a : ArchState) (b : Byte) : ArchState where
  v := hashWhole a.v (a.pending ++ [b])
  pending := restOf (a.pending ++ [b])
  bufLen := a.bufLen + 1
  len := a.len + 1

/-- The DIGEST beats FINAL answers (42_finalize_padding_serialization.md R107, R111). -/
def ArchState.digestBeats (a : ArchState) : List Response :=
  (serialize (hashWhole a.v (a.pending ++ pad a.bufLen.toNat (bitLength a.len)))).toList.map digestBeat

namespace State

@[simp] theorem goto_arch (s : State) (p : Phase) : (s.goto p).arch = s.arch := rfl

@[simp] theorem toInitial_arch (s : State) : s.toInitial.arch = ArchState.initial := by
  simp [arch, ArchState.initial, pending]

@[simp] theorem powerOn_arch (c : Config) : (State.powerOn c).arch = ArchState.initial := by
  simp [arch, ArchState.initial, pending, powerOn]

theorem absorb_arch (s : State) (b : Byte) : (s.absorb b).arch = s.arch.absorb b := by
  obtain ⟨hv, hpending, hbufLen, hlen, -⟩ := absorb_fields s b
  obtain ⟨pv, ppending, -⟩ := pushAll_spec s [b]
  simp only [arch, ArchState.absorb, ArchState.mk.injEq]
  exact ⟨hv.trans pv, hpending.trans ppending, hbufLen, hlen⟩

/-- The padding pipeline is PUSH of the bytes `PAD(BUFLEN, L)` (42_finalize_padding_serialization.md R109, R111). -/
theorem padMessage_eq_pushAll (s : State) : s.padMessage = s.pushAll (pad s.bufLen.toNat s.l) := by
  have hfill : (120 - (s.push padMark).bufLen.toNat) % 64 = padFillCount s.bufLen.toNat := by
    have hlt := s.bufLen.isLt
    rw [push_bufLen, BitVec.toNat_add, show (1 : BitVec 6).toNat = 1 from rfl, padFillCount]
    omega
  rw [padMessage, zeroFill_63, hfill, pad, pushAll_append, pushAll_append]
  rfl

/-- FINAL appends the digest of the architectural state. -/
theorem final_rsp (s : State) : s.latchLength.padMessage.emitDigest.rsp = s.rsp ++ s.arch.digestBeats := by
  obtain ⟨hv, -⟩ := pushAll_spec s.latchLength (pad s.bufLen.toNat (bitLength s.len))
  rw [emitDigest_rsp, padMessage_rsp, latchLength_rsp, padMessage_eq_pushAll, latchLength_bufLen, latchLength_l, hv]
  rfl

/-- The length domain is read from the policy and `LEN`. -/
theorem lengthInDomain_congr {s t : State} (n : Nat) (hlen : s.len = t.len) (hpol : s.policy = t.policy) :
    s.lengthInDomain n = t.lengthInDomain n := by
  unfold lengthInDomain
  rw [hlen, hpol]

end State

/-! ### What a command and a step from IDLE can answer -/

/-- A command that answers a next state is RESET, FINAL, or a WBYTE in the length domain. -/
theorem exec_next_cases {i : Instr} {s t : State} (h : exec i s = .next t) :
    (i = .reset ∧ t = s.toInitial.goto .idle) ∨
    (i = .final ∧ t = s.latchLength.padMessage.emitDigest.toInitial.goto .idle) ∨
    ∃ b, i = .wbyte b ∧ s.lengthInDomain 1 = true ∧ t = s.absorb b := by
  cases i with
  | reset =>
    rw [exec_reset] at h
    cases h
    exact .inl ⟨rfl, rfl⟩
  | final =>
    rw [exec_final] at h
    cases h
    exact .inr (.inl ⟨rfl, rfl⟩)
  | wbyte b =>
    cases hd : s.lengthInDomain 1 with
    | false => rw [exec_wbyte_out b s hd] at h; cases h
    | true =>
      rw [exec_wbyte_in b s hd] at h
      cases h
      exact .inr (.inr ⟨b, rfl, rfl, rfl⟩)

/-- A step from IDLE that answers a next state waits, or runs the command of the beat at the head. -/
theorem step_idle_next_cases {s t : State} (hi : s.seq = .idle) (h : step s = .next t) :
    (s.cmd = [] ∧ t = s) ∨ ∃ c cs i, s.cmd = c :: cs ∧ decode c = .ok i ∧ exec i s.dropBeat = .next t := by
  cases hc : s.cmd with
  | nil =>
    rw [step_waiting s hi hc] at h
    cases h
    exact .inl ⟨rfl, rfl⟩
  | cons c cs =>
    cases hd : decode c with
    | error e =>
      obtain ⟨r⟩ := e
      rw [step_reserved s c r cs hi hc hd] at h
      cases h
    | ok i => exact .inr ⟨c, cs, i, rfl, hd, (step_command s c cs i hi hc hd).symm.trans h⟩

end Sys2Proof.Machine
end

-- ==== The invariant between commands ====
section
/-! The message absorbed since the last reset (10_state.md R32): empty after a reset, one byte longer after a WBYTE. -/

namespace Sys2Proof.Machine.State

theorem holds_nil_of_arch_eq_initial {s : State} (h : s.arch = ArchState.initial) : s.Holds [] := by
  simp only [arch, ArchState.initial, ArchState.mk.injEq] at h
  obtain ⟨hv, hpending, hbufLen, hlen⟩ := h
  exact ⟨hlen, hv, by rw [hbufLen]; rfl, hpending, fun _ => by decide⟩

/-- In the domain `LEN` has not wrapped: it is the length of the message. -/
theorem Holds.len_toNat_of_refuse {s : State} {m : List Byte} (h : s.Holds m) (hp : s.policy = .refuse) :
    s.len.toNat = m.length := by
  have hb : m.length < 2 ^ 61 := h.bound hp
  rw [h.len, BitVec.toNat_ofNat]
  omega

/-- A WBYTE in the length domain makes the message one byte longer. -/
theorem Holds.absorb {s : State} {m : List Byte} (h : s.Holds m) (b : Byte) (hd : s.lengthInDomain 1 = true) :
    (s.absorb b).Holds (m ++ [b]) := by
  obtain ⟨-, -, -, -, -, -, -, hpolicy⟩ := absorb_fields s b
  have ha := absorb_arch s b
  simp only [arch, ArchState.absorb, ArchState.mk.injEq] at ha
  obtain ⟨hv, hpending, hbufLen, hlen⟩ := ha
  have hwhole : s.v = hashWhole IV m := h.v
  have hrest : s.pending = restOf m := h.pending
  refine ⟨?_, ?_, ?_, ?_, ?_⟩
  · rw [hlen, h.len, List.length_append, BitVec.ofNat_add]
    rfl
  · rw [hv, hwhole, hrest]
    exact (hashWhole_append IV m [b]).symm
  · rw [hbufLen, BitVec.toNat_add, h.bufLen, List.length_append]
    exact Nat.mod_add_mod _ _ _
  · rw [hpending, hrest]
    exact (restOf_append m [b]).symm
  · intro hp
    rw [hpolicy] at hp
    have hlt := (lengthInDomain_iff s 1).mp hd hp
    rw [h.len_toNat_of_refuse hp] at hlt
    rw [List.length_append]
    exact hlt

theorem Holds.dropBeat {s : State} {m : List Byte} (h : s.Holds m) : s.dropBeat.Holds m :=
  ⟨h.len, h.v, h.bufLen, h.pending, h.bound⟩

theorem Inv.of_arch_eq_initial {s : State} (hi : s.seq = .idle) (h : s.arch = ArchState.initial) : s.Inv :=
  ⟨hi, [], holds_nil_of_arch_eq_initial h⟩

theorem Inv.exec {s t : State} {i : Instr} (hs : s.Inv) (h : exec i s = .next t) : t.Inv := by
  obtain ⟨-, rfl⟩ | ⟨-, rfl⟩ | ⟨b, -, hd, rfl⟩ := exec_next_cases h
  · exact Inv.of_arch_eq_initial rfl (by simp)
  · exact Inv.of_arch_eq_initial rfl (by simp)
  · obtain ⟨-, m, hm⟩ := hs
    exact ⟨rfl, m ++ [b], hm.absorb b hd⟩

theorem Inv.step {s t : State} (hs : s.Inv) (h : step s = .next t) : t.Inv := by
  have ⟨hi, m, hm⟩ := hs
  obtain ⟨-, rfl⟩ | ⟨c, cs, i, -, -, hexec⟩ := step_idle_next_cases hi h
  · exact hs
  · exact Inv.exec (s := s.dropBeat) ⟨hi, m, hm.dropBeat⟩ hexec

theorem powerOn_inv (c : Config) : (State.powerOn c).Inv := Inv.of_arch_eq_initial rfl (powerOn_arch c)

end Sys2Proof.Machine.State
end

-- ==== Two states with one architectural part ====
section
/-! A simulation: states that agree on the architectural part and the policy answer every command alike, and agree again
afterwards. -/

namespace Sys2Proof.Machine

/-- What two states and what each of them reaches have in common when they respond alike (10_state.md R20): the same new
responses and again one architectural part and policy, or the same refusal. -/
def RespondAlike (s t : State) (os ot : Host.Outcome State Fault Refusal) : Prop :=
  (∃ s' t' new, os = .next s' ∧ ot = .next t' ∧ s'.arch = t'.arch ∧ s'.policy = t'.policy ∧
    s'.rsp = s.rsp ++ new ∧ t'.rsp = t.rsp ++ new) ∨
  ∃ r, os = .refused r ∧ ot = .refused r

theorem exec_respondAlike {s t : State} (i : Instr) (ha : s.arch = t.arch) (hp : s.policy = t.policy) :
    RespondAlike s t (exec i s) (exec i t) := by
  cases i with
  | reset =>
    exact .inl ⟨_, _, [], exec_reset s, exec_reset t, by simp, by simpa using hp, by simp, by simp⟩
  | final =>
    refine .inl ⟨_, _, s.arch.digestBeats, exec_final s, exec_final t, by simp, by simpa using hp, ?_, ?_⟩
    · exact s.final_rsp
    · rw [ha]
      exact t.final_rsp
  | wbyte b =>
    have hdom := State.lengthInDomain_congr 1 (congrArg ArchState.len ha : s.len = t.len) hp
    cases hd : s.lengthInDomain 1 with
    | false => exact .inr ⟨_, exec_wbyte_out b s hd, exec_wbyte_out b t (hdom ▸ hd)⟩
    | true =>
      obtain ⟨-, -, -, -, hrspS, -, -, hpolS⟩ := s.absorb_fields b
      obtain ⟨-, -, -, -, hrspT, -, -, hpolT⟩ := t.absorb_fields b
      refine .inl ⟨_, _, [ackBeat 1], exec_wbyte_in b s hd, exec_wbyte_in b t (hdom ▸ hd), ?_, ?_, hrspS, hrspT⟩
      · rw [State.absorb_arch, State.absorb_arch, ha]
      · rw [hpolS, hpolT, hp]

theorem runAll_cons (i : Instr) (is : List Instr) (s : State) : runAll (i :: is) s = andThen (exec i s) (runAll is) := rfl

theorem runAll_respondAlike {s t : State} (is : List Instr) (ha : s.arch = t.arch) (hp : s.policy = t.policy) :
    RespondAlike s t (runAll is s) (runAll is t) := by
  induction is generalizing s t with
  | nil => exact .inl ⟨s, t, [], rfl, rfl, ha, hp, by simp, by simp⟩
  | cons i is ih =>
    rw [runAll_cons, runAll_cons]
    obtain ⟨s₁, t₁, new₁, hs, ht, ha₁, hp₁, hrs, hrt⟩ | ⟨r, hs, ht⟩ := exec_respondAlike i ha hp
    · rw [hs, ht]
      obtain ⟨s₂, t₂, new₂, hs₂, ht₂, ha₂, hp₂, hrs₂, hrt₂⟩ | hr := ih ha₁ hp₁
      · refine .inl ⟨s₂, t₂, new₁ ++ new₂, hs₂, ht₂, ha₂, hp₂, ?_, ?_⟩
        · rw [hrs₂, hrs, List.append_assoc]
        · rw [hrt₂, hrt, List.append_assoc]
      · exact .inr hr
    · rw [hs, ht]
      exact .inr ⟨r, rfl, rfl⟩

end Sys2Proof.Machine
end

-- ==== Absorbing a byte and the length of the message ====
section
/-! What a WBYTE makes of `V`, with room in the buffer and without (10_state.md R14); the length domain and the bit length in
numbers (10_state.md R19). -/

namespace Sys2Proof.Machine

/-- The block that the 64th byte completes is the buffer with that byte at its end. -/
theorem State.absorb_v_of_full (s : State) (b : Byte) (h : s.bufLen = 63#6) : (s.absorb b).v = CF s.v (s.buf.set 63 b) := by
  obtain ⟨hv, -⟩ := s.absorb_fields b
  rw [hv, State.push_full s b h]
  simp [h]

theorem State.absorb_v_of_room (s : State) (b : Byte) (h : s.bufLen ≠ 63#6) : (s.absorb b).v = s.v := by
  obtain ⟨hv, -⟩ := s.absorb_fields b
  exact hv.trans (State.push_room_v s b h)

theorem bitLength_toNat (n : BitVec 64) : (bitLength n).toNat = n.toNat * 8 % 2 ^ 64 := by
  rw [bitLength, BitVec.toNat_shiftLeft, Nat.shiftLeft_eq]

/-- Outside the length domain a write is refused (10_state.md R19). -/
theorem State.lengthInDomain_eq_false {s : State} {n : Nat} (hp : s.policy = .refuse) (h : 2 ^ 61 ≤ s.len.toNat + n) :
    s.lengthInDomain n = false := by
  rw [Bool.eq_false_iff]
  intro hd
  exact absurd ((s.lengthInDomain_iff n).mp hd hp) (Nat.not_lt.mpr h)

end Sys2Proof.Machine
end

-- ==== The obligations on the state (10_state.md) ====
section
namespace Sys2Proof.Machine

/-- Settles O46: the message absorbed since power-on is the empty one. -/
theorem powerOnHasTheInvariant : Obligations.PowerOnHasTheInvariant := by
  unfold Obligations.PowerOnHasTheInvariant
  exact ⟨State.powerOn_inv, State.powerOn_inv Config.default⟩

/-- Settles O16, clause by clause from the length domain in the words of R19. -/
theorem lengthOverflowPolicies : Obligations.LengthOverflowPolicies := by
  unfold Obligations.LengthOverflowPolicies
  refine ⟨?_, ?_, ?_, bitLength_toNat, ?_⟩
  · intro s b hp hlen
    exact exec_wbyte_out b s (State.lengthInDomain_eq_false hp hlen)
  · intro s data hp hne hlen
    simp [execWrite, hne, State.lengthInDomain_eq_false hp hlen]
  · intro s b hp
    have hd : s.lengthInDomain 1 = true := (s.lengthInDomain_iff 1).mpr fun hr => by rw [hp] at hr; cases hr
    obtain ⟨-, -, -, hlen, -⟩ := s.absorb_fields b
    refine ⟨s.absorb b, exec_wbyte_in b s hd, ?_⟩
    rw [hlen, BitVec.toNat_add]
    rfl
  · intro n hn
    rw [bitLength_toNat]
    omega

/-- Settles O47: 64 divides `2^64`, so wrapping does not change `LEN mod 64`. -/
theorem fillCountIsLengthMod64 : Obligations.FillCountIsLengthMod64 := by
  unfold Obligations.FillCountIsLengthMod64
  rintro s ⟨-, m, hm⟩
  refine ⟨?_, fun hp => ?_⟩
  · rw [hm.bufLen, hm.len, BitVec.toNat_ofNat]
    omega
  · rw [hm.len_toNat_of_refuse hp]
    exact hm.bound hp

/-- Settles O10, from what a step from IDLE can answer. -/
theorem onlyResetsAndFullBlocksWriteV : Obligations.OnlyResetsAndFullBlocksWriteV := by
  unfold Obligations.OnlyResetsAndFullBlocksWriteV
  intro s t hi hstep hne
  obtain ⟨-, rfl⟩ | ⟨c, cs, i, hc, hdec, hexec⟩ := step_idle_next_cases hi hstep
  · exact absurd rfl hne
  refine ⟨c, cs, hc, ?_⟩
  obtain ⟨rfl, rfl⟩ | ⟨rfl, rfl⟩ | ⟨b, rfl, -, rfl⟩ := exec_next_cases hexec
  · exact .inl ⟨hdec, rfl⟩
  · exact .inr (.inl ⟨hdec, rfl⟩)
  · by_cases hfull : s.bufLen = 63#6
    · exact .inr (.inr ⟨b, hdec, hfull, s.dropBeat.absorb_v_of_full b hfull⟩)
    · exact absurd (s.dropBeat.absorb_v_of_room b hfull) hne

/-- Settles O45: a WBYTE appends its byte to the message, RESET and FINAL empty it. -/
theorem stepKeepsTheInvariant : Obligations.StepKeepsTheInvariant := by
  unfold Obligations.StepKeepsTheInvariant
  intro s t hs h
  exact hs.step h

/-- Settles O48, by induction on the commands: agreement on the architectural part is a simulation. -/
theorem architecturalStateDeterminesResponses : Obligations.ArchitecturalStateDeterminesResponses := by
  unfold Obligations.ArchitecturalStateDeterminesResponses
  intro s t is ha hp
  obtain ⟨s', t', new, hs, ht, ha', -, hrs, hrt⟩ | hr := runAll_respondAlike is ha hp
  · exact .inl ⟨s', t', new, hs, ht, ha', hrs, hrt⟩
  · exact .inr hr

end Sys2Proof.Machine
end

-- ==== The byte order of words, length fields and digests ====
section
/-! Big-endian conversion both ways, the value of a word made of four bytes, and the bytes of a digest
(20_memory.md R34 to R37). -/

namespace Sys2Proof.Machine

/-- Appending a field at the low end, as arithmetic. -/
theorem append_toNat_eq_mul_add {m n : Nat} (x : BitVec m) (y : BitVec n) :
    (x ++ y).toNat = x.toNat * 2 ^ n + y.toNat := by
  rw [BitVec.toNat_append, ← Nat.shiftLeft_add_eq_or_of_lt y.isLt, Nat.shiftLeft_eq]

theorem be32Inv_toNat (b0 b1 b2 b3 : Byte) :
    (be32Inv b0 b1 b2 b3).toNat = b0.toNat * 2 ^ 24 + b1.toNat * 2 ^ 16 + b2.toNat * 2 ^ 8 + b3.toNat := by
  simp only [be32Inv, append_toNat_eq_mul_add]
  omega

/-- Four adjacent bytes of a value of any width parse to the 32-bit field they make up. -/
theorem be32Inv_extractLsb' {w : Nat} (x : BitVec w) (start : Nat) :
    be32Inv (x.extractLsb' (start + 24) 8) (x.extractLsb' (start + 16) 8) (x.extractLsb' (start + 8) 8)
      (x.extractLsb' start 8) = x.extractLsb' start 32 := by
  unfold be32Inv
  rw [BitVec.extractLsb'_append_extractLsb'_eq_extractLsb' (show start + 24 = start + 16 + 8 from rfl),
    BitVec.extractLsb'_append_extractLsb'_eq_extractLsb' (show start + 16 = start + 8 + 8 from rfl),
    BitVec.extractLsb'_append_extractLsb'_eq_extractLsb' rfl]

theorem be32Inv_be32 (w : Word) : be32Inv (be32 w)[0] (be32 w)[1] (be32 w)[2] (be32 w)[3] = w :=
  (be32Inv_extractLsb' w 0).trans BitVec.extractLsb'_eq_self

/-- Each byte is found past the bytes appended behind it. -/
theorem be32_be32Inv (b0 b1 b2 b3 : Byte) : be32 (be32Inv b0 b1 b2 b3) = #v[b0, b1, b2, b3] := by
  simp (disch := decide) only [be32, be32Inv, BitVec.extractLsb'_append_eq_of_le, BitVec.extractLsb'_append_eq_right,
    Nat.reduceSub, BitVec.extractLsb'_eq_self]

/-- Byte `k` of `BE64`, from the top. -/
theorem be64_getElem (l : BitVec 64) (k : Nat) (h : k < 8) : (be64 l)[k] = l.extractLsb' (8 * (7 - k)) 8 := by
  interval_cases k <;> rfl

/-- Where the last eight bytes of a block are `BE64(L)`, its last two message words are the halves of `L`. -/
theorem messageWord_of_lengthField (l : BitVec 64) (blk : Block)
    (hfield : ∀ (k : Nat) (h : k < 8), blk[56 + k] = (be64 l)[k]) :
    messageWord blk 14 (by omega) = l.extractLsb' 32 32 ∧ messageWord blk 15 (by omega) = l.extractLsb' 0 32 := by
  have hbyte (k : Nat) (h : k < 8) : blk[56 + k] = l.extractLsb' (8 * (7 - k)) 8 := by
    rw [hfield k h, be64_getElem l k h]
  constructor
  · calc messageWord blk 14 (by omega)
      _ = be32Inv blk[56 + 0] blk[56 + 1] blk[56 + 2] blk[56 + 3] := messageWord_eq blk 14 (by omega)
      _ = be32Inv (l.extractLsb' 56 8) (l.extractLsb' 48 8) (l.extractLsb' 40 8) (l.extractLsb' 32 8) := by
        rw [hbyte 0 (by omega), hbyte 1 (by omega), hbyte 2 (by omega), hbyte 3 (by omega)]
      _ = l.extractLsb' 32 32 := be32Inv_extractLsb' l 32
  · calc messageWord blk 15 (by omega)
      _ = be32Inv blk[56 + 4] blk[56 + 5] blk[56 + 6] blk[56 + 7] := messageWord_eq blk 15 (by omega)
      _ = be32Inv (l.extractLsb' 24 8) (l.extractLsb' 16 8) (l.extractLsb' 8 8) (l.extractLsb' 0 8) := by
        rw [hbyte 4 (by omega), hbyte 5 (by omega), hbyte 6 (by omega), hbyte 7 (by omega)]
      _ = l.extractLsb' 0 32 := be32Inv_extractLsb' l 0

theorem serialize_getElem (v : HashValue) (i k : Nat) (hi : i < 8) (hk : k < 4) :
    (serialize v)[4 * i + k] = (be32 v[i])[k] := by
  have hdiv : (4 * i + k) / 4 = i := by omega
  have hmod : (4 * i + k) % 4 = k := by omega
  simp only [serialize, Vector.getElem_ofFn, hdiv, hmod]

theorem toList_eq_ofFn_getElem {α : Type} {n : Nat} (xs : Vector α n) : xs.toList = List.ofFn fun i : Fin n => xs[i.val] :=
  (congrArg Vector.toList Vector.ofFn_getElem.symm).trans Vector.toList_ofFn

/-- The digest is the bytes of the eight words in order. -/
theorem serialize_toList (v : HashValue) :
    (serialize v).toList = (List.ofFn fun i : Fin 8 => (be32 v[i]).toList).flatten := by
  have hbytes (i : Fin 8) : (be32 v[i]).toList = List.ofFn fun k : Fin 4 => (serialize v)[4 * i.val + k.val] := by
    simp only [serialize_getElem v i.val _ i.isLt (Fin.isLt _)]
    exact toList_eq_ofFn_getElem _
  simp only [hbytes]
  calc (serialize v).toList
    _ = List.ofFn fun n : Fin (4 * 8) => (serialize v)[n.val] := toList_eq_ofFn_getElem _
    _ = _ := List.ofFn_mul' _

end Sys2Proof.Machine
end

-- ==== Where an absorbed byte is stored ====
section
/-! A PUSH stores at the fill position, with room in the buffer and without; COMPRESS leaves `BUF` as it is
(41_commands_reset_write.md R95). -/

namespace Sys2Proof.Machine.State

theorem push_buf (s : State) (b : Byte) : (s.push b).buf = s.buf.set s.bufLen.toNat b s.bufLen.isLt := by
  by_cases h : s.bufLen = 63#6
  · rw [push_full s b h]
    simp
  · rw [push_room s b h]
    simp

theorem absorb_buf (s : State) (b : Byte) : (s.absorb b).buf = s.buf.set s.bufLen.toNat b s.bufLen.isLt := by
  rw [absorb_eq, push_countByte]
  exact push_buf s b

end Sys2Proof.Machine.State
end

-- ==== The obligations on byte order and the buffer (20_memory.md) ====
section
namespace Sys2Proof.Machine

/-- Settles O21: a WBYTE stores at `BUFLEN`, which between commands is `LEN mod 64`. -/
theorem byteLandsAtLengthMod64 : Obligations.ByteLandsAtLengthMod64 := by
  unfold Obligations.ByteLandsAtLengthMod64
  intro s b hinv hdom
  obtain ⟨hfill, -⟩ := fillCountIsLengthMod64 s hinv
  refine ⟨s.absorb b, exec_wbyte_in b s ((s.lengthInDomain_iff 1).mpr hdom), fun k hk => ?_⟩
  simp only [State.absorb_buf, Vector.getElem_set, hfill, eq_comm]

/-- Settles O42, with message word `i` as the parse of its four bytes. -/
theorem bigEndianWords : Obligations.BigEndianWords := by
  unfold Obligations.BigEndianWords
  refine ⟨fun w => ⟨rfl, be32Inv_be32 w⟩, be32_be32Inv, fun blk i h => ?_⟩
  rw [messageWord_eq, be32Inv_toNat]

/-- Settles O25, from one byte of the digest and from the digest as the bytes of its words. -/
theorem digestLayout : Obligations.DigestLayout := by
  unfold Obligations.DigestLayout
  intro v
  refine ⟨serialize_getElem v, ?_, serialize_getElem v 0 0 (by omega) (by omega),
    serialize_getElem v 7 3 (by omega) (by omega)⟩
  rw [serialize_toList]
  simp [List.ofFn_succ]

/-- Settles O43: message words 14 and 15 parse the length field. -/
theorem lengthFieldWords : Obligations.LengthFieldWords := by
  unfold Obligations.LengthFieldWords
  exact fun l => ⟨rfl, messageWord_of_lengthField l⟩

end Sys2Proof.Machine
end

-- ==== The decoder and the encoder as inverses ====
section
/-! A beat is its `OP` and its `ARG`; the decoder answers a command on exactly the beat the encoder gives it, and an error on
the three reserved ranges (30_encoding.md R54 to R59, R64). -/

namespace Sys2Proof

theorem Beat.op_append_arg (c : Beat) : Beat.op c ++ Beat.arg c = c := BitVec.extractLsb'_append_extractLsb'

theorem Beat.op_toNat (c : Beat) : (Beat.op c).toNat = c.toNat / 256 := by
  have hlt := c.isLt
  rw [Beat.op, BitVec.extractLsb'_toNat, Nat.shiftRight_eq_div_pow]
  omega

theorem Beat.op_eq_zero_iff (c : Beat) : Beat.op c = 0b00#2 ↔ c.toNat < 256 := by
  rw [← BitVec.toNat_inj, Beat.op_toNat, BitVec.toNat_ofNat]
  omega

theorem encode_wbyte_eq_setWidth (b : Byte) : encode (.wbyte b) = b.setWidth 10 :=
  (BitVec.setWidth_eq_append (by decide)).symm

theorem decode_encode (i : Instr) : decode (encode i) = .ok i := by
  cases i with
  | wbyte b =>
    obtain ⟨-, hdecode, -⟩ := Laws.Encoding.wbyte b
    exact hdecode
  | reset => rfl
  | final => rfl

theorem encode_of_decode_eq_ok {c : Beat} {i : Instr} (h : decode c = .ok i) : encode i = c := by
  unfold decode at h
  split_ifs at h with hop hreset hfinal
  · cases h
    rw [encode, ← hop]
    exact c.op_append_arg
  · cases h
    exact hreset.symm
  · cases h
    exact hfinal.symm

/-- The decoder's only error names the beat it was given. -/
theorem eq_reserved_of_decode_eq_error {c : Beat} {e : DecodeError} (h : decode c = .error e) : e = .reserved c := by
  unfold decode at h
  split_ifs at h
  cases h
  rfl

theorem decode_eq_reserved_iff (c : Beat) :
    decode c = .error (.reserved c) ↔ 256 ≤ c.toNat ∧ c ≠ 0x100#10 ∧ c ≠ 0x200#10 := by
  rw [← not_lt, ← Beat.op_eq_zero_iff]
  unfold decode
  split_ifs <;> simp_all

/-- The reserved beats are the rest of `OP = 01` and of `OP = 10`, and all of `OP = 11` (30_encoding.md R59). -/
theorem decode_eq_reserved_iff_mem_ranges (c : Beat) : decode c = .error (.reserved c) ↔
    (0x101#10 ≤ c ∧ c ≤ 0x1ff#10) ∨ (0x201#10 ≤ c ∧ c ≤ 0x2ff#10) ∨ (0x300#10 ≤ c ∧ c ≤ 0x3ff#10) := by
  rw [decode_eq_reserved_iff]
  bv_omega

theorem decodeAll_cons_of_ok {c : Beat} {i : Instr} {cs : List Beat} {is : List Instr} (hc : decode c = .ok i)
    (hcs : decodeAll cs = .ok is) : decodeAll (c :: cs) = .ok (i :: is) := by
  rw [decodeAll, hc, hcs]

/-- A sequence with a first beat decodes where the beat and the rest do. -/
theorem decodeAll_cons_ok_cases {c : Beat} {cs : List Beat} {is : List Instr} (h : decodeAll (c :: cs) = .ok is) :
    ∃ j js, decode c = .ok j ∧ decodeAll cs = .ok js ∧ is = j :: js := by
  rw [decodeAll] at h
  cases hc : decode c with
  | error e => rw [hc] at h; cases h
  | ok j =>
    cases hcs : decodeAll cs with
    | error e => rw [hc, hcs] at h; cases h
    | ok js =>
      rw [hc, hcs] at h
      cases h
      exact ⟨j, js, rfl, rfl, rfl⟩

theorem decodeAll_encodeAll (is : List Instr) : decodeAll (encodeAll is) = .ok is := by
  induction is with
  | nil => rfl
  | cons i is ih => exact decodeAll_cons_of_ok (decode_encode i) ih

theorem encodeAll_of_decodeAll_eq_ok {cs : List Beat} {is : List Instr} (h : decodeAll cs = .ok is) : encodeAll is = cs := by
  induction cs generalizing is with
  | nil =>
    cases h
    rfl
  | cons c cs ih =>
    obtain ⟨j, js, hc, hcs, rfl⟩ := decodeAll_cons_ok_cases h
    exact congrArg₂ List.cons (encode_of_decode_eq_ok hc) (ih hcs)

end Sys2Proof
end

-- ==== What a step appends to the response channel ====
section
/-! The beats each micro-step and each command answers, as functions of the state (30_encoding.md R60 to R62). -/

namespace Sys2Proof.Machine

/-- An ACK of one byte or a DIGEST beat (30_encoding.md R61, R62). -/
def Response.IsAckOrDigest (r : Response) : Prop := r = 0x001#9 ∨ Response.k r = 1#1

theorem ackBeat_one : ackBeat 1 = 0x001#9 := rfl

@[simp] theorem Response.k_digestBeat (d : Byte) : Response.k (digestBeat d) = 1#1 := BitVec.extractLsb'_append_eq_left

theorem isAckOrDigest_ackBeat_one : Response.IsAckOrDigest (ackBeat 1) := .inl ackBeat_one

theorem isAckOrDigest_digestBeat (d : Byte) : Response.IsAckOrDigest (digestBeat d) := .inr (Response.k_digestBeat d)

theorem ArchState.digestBeats_length (a : ArchState) : a.digestBeats.length = 32 := by
  rw [digestBeats, List.length_map, Vector.length_toList]

theorem ArchState.exists_of_mem_digestBeats {a : ArchState} {r : Response} (h : r ∈ a.digestBeats) :
    ∃ d, digestBeat d = r := by
  obtain ⟨d, -, hd⟩ := List.mem_map.mp h
  exact ⟨d, hd⟩

namespace State

/-! ### Inside a command -/

@[simp] theorem pushRow_rsp (s : State) (b : Byte) (caller : PushPhase) (next : Phase) :
    (s.pushRow b caller next).rsp = s.rsp := by
  unfold pushRow
  split <;> simp

@[simp] theorem fillRow_rsp (s : State) : s.fillRow.rsp = s.rsp := by
  unfold fillRow
  split <;> simp

@[simp] theorem roundRow_rsp (s : State) (caller : PushPhase) : (s.roundRow caller).rsp = s.rsp := by
  unfold roundRow
  split <;> simp

@[simp] theorem acknowledge_rsp (s : State) : s.acknowledge.rsp = s.rsp ++ [ackBeat 1] := rfl

theorem absorbRow_rsp (s : State) (b : Byte) :
    (s.absorbRow b).rsp = s.rsp ++ if s.bufLast then [] else [ackBeat 1] := by
  unfold absorbRow
  split <;> simp

/-- What the row of the present phase answers: the end of a `WBYTE` an ACK, `F_SER` a digest byte. -/
def microResponses (s : State) : List Response :=
  match s.seq with
  | .absorb _ false => if s.bufLast then [] else [ackBeat 1]
  | .absorb _ true => [ackBeat 1]
  | .fSer i => [digestBeat (serialize s.v)[i.toNat]]
  | _ => []

theorem micro_rsp (s : State) : s.micro.rsp = s.rsp ++ s.microResponses := by
  unfold micro microResponses
  split <;> simp [absorbRow_rsp, *]

theorem isAckOrDigest_of_mem_microResponses {s : State} {r : Response} (h : r ∈ s.microResponses) :
    Response.IsAckOrDigest r := by
  unfold microResponses at h
  split at h
  · split at h
    · cases h
    · rw [List.mem_singleton.mp h]
      exact isAckOrDigest_ackBeat_one
  · rw [List.mem_singleton.mp h]
    exact isAckOrDigest_ackBeat_one
  · rw [List.mem_singleton.mp h]
    exact isAckOrDigest_digestBeat _
  · cases h

/-! ### From IDLE -/

/-- What a command that is not refused answers (30_encoding.md R61, R62; 41_commands_reset_write.md R93). -/
def responsesTo (s : State) : Instr → List Response
  | .wbyte _ => [ackBeat 1]
  | .reset => []
  | .final => s.arch.digestBeats

theorem responsesTo_final (s : State) : s.responsesTo .final = s.arch.digestBeats := rfl

theorem rsp_of_exec_eq_next {s t : State} {i : Instr} (h : exec i s = .next t) : t.rsp = s.rsp ++ s.responsesTo i := by
  obtain ⟨rfl, rfl⟩ | ⟨rfl, rfl⟩ | ⟨b, rfl, -, rfl⟩ := exec_next_cases h
  · exact (List.append_nil s.rsp).symm
  · exact s.final_rsp
  · obtain ⟨-, -, -, -, hrsp, -⟩ := s.absorb_fields b
    exact hrsp

theorem isAckOrDigest_of_mem_responsesTo {s : State} {i : Instr} {r : Response} (h : r ∈ s.responsesTo i) :
    Response.IsAckOrDigest r := by
  cases i with
  | wbyte b =>
    rw [List.mem_singleton.mp h]
    exact isAckOrDigest_ackBeat_one
  | reset => cases h
  | final =>
    rw [responsesTo_final] at h
    obtain ⟨d, rfl⟩ := ArchState.exists_of_mem_digestBeats h
    exact isAckOrDigest_digestBeat d

end State

end Sys2Proof.Machine
end

-- ==== The burst of WBYTEs and the WRITE ====
section
/-! A run of WBYTEs absorbs the bytes as WRITE does and answers one ACK for each; the WRITE and the run are refused alike
(30_encoding.md R69). -/

namespace Sys2Proof.Machine

theorem dataSum_replicate (n : Nat) (r : Response) : dataSum (List.replicate n r) = n * (Response.data r).toNat := by
  induction n with
  | zero => rw [Nat.zero_mul]; rfl
  | succ n ih => rw [List.replicate_succ, dataSum, ih, Nat.succ_mul, Nat.add_comm]

namespace State

theorem absorbAll_goto (s : State) (p : Phase) (bs : List Byte) : (s.goto p).absorbAll bs = (s.absorbAll bs).goto p := by
  rw [absorbAll_eq, absorbAll_eq, pushAll_goto]
  rfl

theorem absorbAll_emit (s : State) (r : Response) (bs : List Byte) : (s.emit r).absorbAll bs = (s.absorbAll bs).emit r := by
  induction bs generalizing s with
  | nil => rfl
  | cons b bs ih =>
    show ((s.countByte.emit r).push b).absorbAll bs = ((s.countByte.push b).absorbAll bs).emit r
    rw [push_emit, ih]

theorem absorb_absorbAll (s : State) (b : Byte) (bs : List Byte) :
    (s.absorb b).absorbAll bs = ((s.absorbAll (b :: bs)).emit (ackBeat 1)).goto .idle := by
  rw [absorb_eq, absorbAll_goto, absorbAll_emit]
  rfl

/-- After one byte in the length domain the domain has room for one byte less: `LEN + 1` has not wrapped. -/
theorem absorb_lengthInDomain (s : State) (b : Byte) (n : Nat) (h : s.lengthInDomain 1 = true) :
    (s.absorb b).lengthInDomain n = s.lengthInDomain (n + 1) := by
  obtain ⟨-, -, -, hlen, -, -, -, hpolicy⟩ := s.absorb_fields b
  rw [Bool.eq_iff_iff, lengthInDomain_iff, lengthInDomain_iff, hpolicy]
  refine forall_congr' fun hp => ?_
  have hroom := (s.lengthInDomain_iff 1).mp h hp
  have hsucc : (s.len + 1).toNat = s.len.toNat + 1 := by
    rw [BitVec.toNat_add, show (1 : BitVec 64).toNat = 1 from rfl]
    omega
  rw [hlen, hsucc, Nat.add_assoc, Nat.add_comm 1 n]

/-- A shorter write is in the length domain where a longer one is. -/
theorem lengthInDomain_mono {s : State} {m n : Nat} (hmn : m ≤ n) (h : s.lengthInDomain n = true) :
    s.lengthInDomain m = true := by
  rw [lengthInDomain_iff] at h ⊢
  exact fun hp => lt_of_le_of_lt (Nat.add_le_add_left hmn _) (h hp)

/-- The state after a burst: the bytes absorbed, and one ACK for each behind the old responses. -/
def burst (s : State) (data : List Byte) : State :=
  { (s.absorbAll data).goto .idle with rsp := s.rsp ++ List.replicate data.length (ackBeat 1) }

theorem burst_nil {s : State} (hi : s.seq = .idle) : s.burst [] = s := by
  apply ext_fields <;> simp [burst, absorbAll, hi]

theorem burst_cons (s : State) (b : Byte) (bs : List Byte) : (s.absorb b).burst bs = s.burst (b :: bs) := by
  obtain ⟨-, -, -, -, hrsp, -⟩ := s.absorb_fields b
  rw [burst, burst, absorb_absorbAll, hrsp, List.length_cons, List.replicate_succ, List.append_assoc]
  rfl

end State

/-- What WRITE is refused for: it is not empty and not in the length domain (10_state.md R19). -/
theorem execWrite_cases (data : List Byte) (s : State) :
    ((data = [] ∨ s.lengthInDomain data.length = true) ∧
      execWrite data s = .next ((s.absorbAll data).goto .idle, data.length)) ∨
    (data ≠ [] ∧ s.lengthInDomain data.length = false ∧ execWrite data s = .refused .lengthOverflow) := by
  unfold execWrite
  split
  case isTrue h =>
    rw [Bool.or_eq_true, List.isEmpty_iff] at h
    exact .inl ⟨h, rfl⟩
  case isFalse h =>
    rw [Bool.or_eq_true, List.isEmpty_iff, not_or, Bool.not_eq_true] at h
    obtain ⟨hne, hd⟩ := h
    exact .inr ⟨hne, hd, rfl⟩

theorem runAll_wbyte_cons (s : State) (b : Byte) (bs : List Byte) (h : s.lengthInDomain 1 = true) :
    runAll ((b :: bs).map .wbyte) s = runAll (bs.map .wbyte) (s.absorb b) := by
  rw [List.map_cons, runAll_cons, exec_wbyte_in b s h]
  rfl

theorem runAll_wbytes_eq_burst (data : List Byte) (s : State) (hi : s.seq = .idle)
    (hd : data = [] ∨ s.lengthInDomain data.length = true) : runAll (data.map .wbyte) s = .next (s.burst data) := by
  induction data generalizing s with
  | nil => rw [State.burst_nil hi]; rfl
  | cons b bs ih =>
    have hall : s.lengthInDomain (bs.length + 1) = true := hd.resolve_left (List.cons_ne_nil b bs)
    have hone : s.lengthInDomain 1 = true := State.lengthInDomain_mono (Nat.le_add_left 1 _) hall
    rw [runAll_wbyte_cons s b bs hone, ih (s.absorb b) rfl (.inr ?_), State.burst_cons]
    rw [State.absorb_lengthInDomain s b _ hone, hall]

theorem runAll_wbytes_refused (data : List Byte) (s : State) (hne : data ≠ []) (hd : s.lengthInDomain data.length = false) :
    runAll (data.map .wbyte) s = .refused .lengthOverflow := by
  induction data generalizing s with
  | nil => contradiction
  | cons b bs ih =>
    cases hone : s.lengthInDomain 1 with
    | false => rw [List.map_cons, runAll_cons, exec_wbyte_out b s hone]; rfl
    | true =>
      have hne' : bs ≠ [] := fun h => by simp [h, hone] at hd
      rw [runAll_wbyte_cons s b bs hone]
      exact ih (s.absorb b) hne' ((State.absorb_lengthInDomain s b _ hone).trans hd)

end Sys2Proof.Machine
end

-- ==== The obligations on the encoding (30_encoding.md) ====
section
namespace Sys2Proof.Machine

/-- Settles O1: the encoder is read off, and both round trips go from one beat to a sequence by induction. -/
theorem decodeAndEncodeAgree : Obligations.DecodeAndEncodeAgree := by
  unfold Obligations.DecodeAndEncodeAgree
  refine ⟨fun _ => rfl, fun b => ?_, rfl, rfl, decode_encode, fun _ _ => encode_of_decode_eq_ok, decodeAll_encodeAll,
    fun _ _ => encodeAll_of_decodeAll_eq_ok⟩
  rw [encode_wbyte_eq_setWidth, BitVec.zero_add]

/-- Settles O9: inside a command by the row of the phase, in IDLE by what the decoded command answers. -/
theorem stepsOnlyAppendAcksAndDigests : Obligations.StepsOnlyAppendAcksAndDigests := by
  unfold Obligations.StepsOnlyAppendAcksAndDigests
  intro s t h
  by_cases hi : s.seq = .idle
  case neg =>
    rw [step_busy s hi] at h
    cases h
    exact ⟨s.microResponses, s.micro_rsp, fun _ => State.isAckOrDigest_of_mem_microResponses, fun hi' => absurd hi' hi⟩
  obtain ⟨hc, rfl⟩ | ⟨c, cs, i, hc, hdec, hexec⟩ := step_idle_next_cases hi h
  · refine ⟨[], (List.append_nil _).symm, by simp, fun _ => ⟨fun _ => rfl, ?_, ?_, ?_⟩⟩ <;> simp [hc]
  · have hhead {c' cs' i'} (hc' : s.cmd = c' :: cs') (hdec' : decode c' = .ok i') : i = i' := by
      obtain ⟨rfl, -⟩ := List.cons.inj (hc.symm.trans hc')
      exact Except.ok.inj (hdec.symm.trans hdec')
    refine ⟨_, State.rsp_of_exec_eq_next (s := s.dropBeat) hexec, fun _ => State.isAckOrDigest_of_mem_responsesTo,
      fun _ => ⟨?_, ?_, ?_, ?_⟩⟩
    · intro hnil
      cases hc.symm.trans hnil
    · intro c' cs' hc' hdec'
      cases hhead hc' hdec'
      rfl
    · intro c' cs' b hc' hdec'
      cases hhead hc' hdec'
      rfl
    · intro c' cs' hc' hdec'
      cases hhead hc' hdec'
      rw [State.responsesTo_final]
      refine ⟨ArchState.digestBeats_length _, fun r hr => ?_⟩
      obtain ⟨d, rfl⟩ := ArchState.exists_of_mem_digestBeats hr
      exact Response.k_digestBeat d

/-- Settles O20: in the length domain the burst absorbs what the WRITE absorbs; outside it one of its WBYTEs is refused. -/
theorem burstAgreesWithWrite : Obligations.BurstAgreesWithWrite := by
  unfold Obligations.BurstAgreesWithWrite
  intro s data hi
  obtain ⟨hd, hw⟩ | ⟨hne, hd, hw⟩ := execWrite_cases data s
  · refine ⟨fun t n h => ?_, fun r h => ?_⟩
    · cases hw.symm.trans h
      exact ⟨runAll_wbytes_eq_burst data s hi hd, by rw [dataSum_replicate]; exact (Nat.mul_one _).symm⟩
    · cases hw.symm.trans h
  · refine ⟨fun t n h => ?_, fun r h => ?_⟩
    · cases hw.symm.trans h
    · cases hw.symm.trans h
      exact runAll_wbytes_refused data s hne hd

/-- Settles O2; the ill-formed beats are counted. -/
theorem reservedBeatsAreThe766 : Obligations.ReservedBeatsAreThe766 := by
  unfold Obligations.ReservedBeatsAreThe766
  exact ⟨decode_eq_reserved_iff_mem_ranges, fun _ _ => eq_reserved_of_decode_eq_error, by decide +kernel⟩

/-- Settles O3 by running the decoder on the nine beats. -/
theorem writtenOutBeatsDecode : Obligations.WrittenOutBeatsDecode := by
  unfold Obligations.WrittenOutBeatsDecode
  decide

/-- Settles O4: the beats of a mapped list are the list mapped twice. -/
theorem pseudoCommandsExpand : Obligations.PseudoCommandsExpand := by
  unfold Obligations.PseudoCommandsExpand
  have hbeats (s : List Byte) : encodeAll (s.map .wbyte) = s.map fun b => 0b00#2 ++ b := List.map_map
  refine ⟨fun s => ⟨rfl, hbeats s⟩, rfl, rfl, fun _ => rfl, fun s => ?_⟩
  rw [← hbeats]
  exact List.map_append

/-- Settles O5: without its head beat the channel holds the rest. -/
theorem stepRunsTheDecodedCommand : Obligations.StepRunsTheDecodedCommand := by
  unfold Obligations.StepRunsTheDecodedCommand
  intro s c cs i hi hc hd
  rw [step_command s c cs i hi hc hd, State.dropBeat, hc, List.tail_cons]

/-- Settles O6: the decoder answers the reserved error on the three ranges. -/
theorem reservedBeatIsRefused : Obligations.ReservedBeatIsRefused := by
  unfold Obligations.ReservedBeatIsRefused
  intro s c cs hi hc hr
  exact step_reserved s c c cs hi hc ((decode_eq_reserved_iff_mem_ranges c).mpr hr)

end Sys2Proof.Machine
end

-- ==== The word functions ====
section
/-! Rotation bit by bit and as arithmetic; the two permutations, the Boolean functions, the round constants and the adder trees
by their rules (40_constants_and_word_functions.md R72 to R81; 43_compression.md R129). -/

namespace Sys2Proof.Machine

/-! ### Rotation -/

/-- Bit `i` comes from `n` places below, cyclically: `31 * n` is `-n` modulo 32. -/
theorem rotl_getElem (x : Word) (n i : Nat) (h : i < 32) : (rotl x n)[i] = x[(i + 31 * n) % 32]'(by omega) := by
  rw [rotl, BitVec.getElem_rotateLeft]
  split
  all_goals
    congr 1
    omega

theorem rotl_of_mod_eq_zero (x : Word) (n : Nat) (h : n % 32 = 0) : rotl x n = x := by
  refine BitVec.eq_of_getElem_eq fun i hi => ?_
  have hsame : (i + 31 * n) % 32 = i := by omega
  simp only [rotl_getElem, hsame]

theorem rotl_rotl (x : Word) (a b : Nat) : rotl (rotl x a) b = rotl x (a + b) := by
  refine BitVec.eq_of_getElem_eq fun i hi => ?_
  have hsame : ((i + 31 * b) % 32 + 31 * a) % 32 = (i + 31 * (a + b)) % 32 := by omega
  simp only [rotl_getElem, hsame]

theorem rotl_xor (x y : Word) (n : Nat) : rotl (x ^^^ y) n = rotl x n ^^^ rotl y n := by
  refine BitVec.eq_of_getElem_eq fun i hi => ?_
  rw [BitVec.getElem_xor, rotl_getElem, rotl_getElem, rotl_getElem, BitVec.getElem_xor]

@[simp] theorem rotl_zero_word (n : Nat) : rotl 0#32 n = 0#32 := by
  refine BitVec.eq_of_getElem_eq fun i hi => ?_
  rw [rotl_getElem, BitVec.getElem_zero, BitVec.getElem_zero]

@[simp] theorem rotl_ones_word (n : Nat) : rotl 0xffffffff#32 n = 0xffffffff#32 := by
  change rotl (BitVec.allOnes 32) n = BitVec.allOnes 32
  refine BitVec.eq_of_getElem_eq fun i hi => ?_
  rw [rotl_getElem, BitVec.getElem_allOnes, BitVec.getElem_allOnes]

/-- The bits shifted up and the bits that re-enter at the bottom do not meet, so their union is their sum. -/
theorem rotl_toNat (x : Word) (n : Nat) :
    (rotl x n).toNat = (x.toNat * 2 ^ (n % 32)) % 2 ^ 32 + x.toNat / 2 ^ (32 - n % 32) := by
  rw [rotl, BitVec.toNat_rotateLeft, Nat.mod_mod, Nat.shiftLeft_eq, Nat.shiftRight_eq_div_pow]
  generalize hr : n % 32 = r
  have hsplit : 2 ^ 32 = 2 ^ (32 - r) * 2 ^ r := by rw [← Nat.pow_add, Nat.sub_add_cancel (by omega)]
  have hlow : x.toNat / 2 ^ (32 - r) < 2 ^ r := Nat.div_lt_of_lt_mul (hsplit ▸ x.isLt)
  rw [hsplit, Nat.mul_mod_mul_right, ← Nat.shiftLeft_eq, ← Nat.shiftLeft_add_eq_or_of_lt hlow]

/-! ### The word mixer -/

/-- The shape that `P0` and `P1` share: a word, exclusive-or two of its rotations (R78, R79). -/
def xorRotations (a b : Nat) (x : Word) : Word := x ^^^ rotl x a ^^^ rotl x b

theorem P0_eq_xorRotations : P0 = xorRotations 9 17 := rfl

theorem P1_eq_xorRotations : P1 = xorRotations 15 23 := rfl

theorem xorRotations_xor (a b : Nat) (x y : Word) :
    xorRotations a b (x ^^^ y) = xorRotations a b x ^^^ xorRotations a b y := by
  unfold xorRotations
  rw [rotl_xor, rotl_xor]
  ac_rfl

theorem xorRotations_zero (a b : Nat) : xorRotations a b 0#32 = 0#32 := by
  simp [xorRotations]

theorem xorRotations_ones (a b : Nat) : xorRotations a b 0xffffffff#32 = 0xffffffff#32 := by
  simp [xorRotations]

/-- Applied twice, the mixed terms cancel and the rotation amounts double. -/
theorem xorRotations_comp_self (a b : Nat) :
    xorRotations a b ∘ xorRotations a b = xorRotations (2 * a) (2 * b) := by
  funext x
  have hmixed : rotl x (b + a) = rotl x (a + b) := by rw [Nat.add_comm]
  calc xorRotations a b (xorRotations a b x)
    _ = (x ^^^ rotl x a ^^^ rotl x b) ^^^ (rotl x a ^^^ rotl x (a + a) ^^^ rotl x (a + b)) ^^^
        (rotl x b ^^^ rotl x (a + b) ^^^ rotl x (b + b)) := by
      simp only [xorRotations, rotl_xor, rotl_rotl, hmixed]
    _ = x ^^^ rotl x (a + a) ^^^ rotl x (b + b) ^^^ (rotl x a ^^^ rotl x a) ^^^ (rotl x b ^^^ rotl x b) ^^^
        (rotl x (a + b) ^^^ rotl x (a + b)) := by ac_rfl
    _ = xorRotations (2 * a) (2 * b) x := by
      simp only [BitVec.xor_self, BitVec.xor_zero, ← Nat.two_mul, xorRotations]

/-- Rotations by multiples of 32 are the identity, and a word exclusive-or itself twice is the word. -/
theorem xorRotations_of_mod_eq_zero {a b : Nat} (ha : a % 32 = 0) (hb : b % 32 = 0) : xorRotations a b = id := by
  funext x
  rw [xorRotations, rotl_of_mod_eq_zero x a ha, rotl_of_mod_eq_zero x b hb, BitVec.xor_self, BitVec.zero_xor, id]

theorem xorRotations_injective_of_pow_two_mul (k a b : Nat)
    (h : Function.Injective (xorRotations (2 ^ k * a) (2 ^ k * b))) : Function.Injective (xorRotations a b) := by
  induction k with
  | zero => rwa [Nat.pow_zero, Nat.one_mul, Nat.one_mul] at h
  | succ k ih =>
    rw [Nat.pow_succ', Nat.mul_assoc, Nat.mul_assoc, ← xorRotations_comp_self] at h
    exact ih h.of_comp

/-- Five doublings make both amounts multiples of 32, whatever they are. -/
theorem xorRotations_bijective (a b : Nat) : Function.Bijective (xorRotations a b) := by
  refine Finite.injective_iff_bijective.mp (xorRotations_injective_of_pow_two_mul 5 a b ?_)
  rw [xorRotations_of_mod_eq_zero (Nat.mul_mod_right (2 ^ 5) a) (Nat.mul_mod_right (2 ^ 5) b)]
  exact Function.injective_id

/-! ### The two forms of the round functions -/

theorem firstForm_of_le {j : BitVec 6} (h : j.toNat ≤ 15) : firstForm j = true := decide_eq_true h

theorem firstForm_of_ge {j : BitVec 6} (h : 16 ≤ j.toNat) : firstForm j = false := decide_eq_false (by omega)

section
variable {j : BitVec 6} (x y z : Word)

theorem T_of_le (h : j.toNat ≤ 15) : T j = T0 := by
  rw [T, firstForm_of_le h, if_pos rfl]

theorem T_of_ge (h : 16 ≤ j.toNat) : T j = T1 := by
  rw [T, firstForm_of_ge h, if_neg Bool.false_ne_true]

theorem FF_of_le (h : j.toNat ≤ 15) : FF j x y z = x ^^^ y ^^^ z := by
  rw [FF, firstForm_of_le h, if_pos rfl]

theorem FF_of_ge (h : 16 ≤ j.toNat) : FF j x y z = (x &&& y) ||| (x &&& z) ||| (y &&& z) := by
  rw [FF, firstForm_of_ge h, if_neg Bool.false_ne_true]

theorem GG_of_le (h : j.toNat ≤ 15) : GG j x y z = x ^^^ y ^^^ z := by
  rw [GG, firstForm_of_le h, if_pos rfl]

theorem GG_of_ge (h : 16 ≤ j.toNat) : GG j x y z = (x &&& y) ||| (~~~x &&& z) := by
  rw [GG, firstForm_of_ge h, if_neg Bool.false_ne_true]

theorem FF_getElem_of_le (h : j.toNat ≤ 15) (i : Nat) (hi : i < 32) : (FF j x y z)[i] = (x[i] ^^ y[i] ^^ z[i]) := by
  rw [FF_of_le x y z h, BitVec.getElem_xor, BitVec.getElem_xor]

theorem GG_getElem_of_le (h : j.toNat ≤ 15) (i : Nat) (hi : i < 32) : (GG j x y z)[i] = (x[i] ^^ y[i] ^^ z[i]) := by
  rw [GG_of_le x y z h, BitVec.getElem_xor, BitVec.getElem_xor]

/-- The majority of three bits: the first two where they agree, else the third. -/
theorem FF_getElem_of_ge (h : 16 ≤ j.toNat) (i : Nat) (hi : i < 32) :
    (FF j x y z)[i] = if x[i] = y[i] then x[i] else z[i] := by
  simp only [FF_of_ge x y z h, BitVec.getElem_or, BitVec.getElem_and]
  cases x[i] <;> cases y[i] <;> simp

theorem GG_getElem_of_ge (h : 16 ≤ j.toNat) (i : Nat) (hi : i < 32) :
    (GG j x y z)[i] = if x[i] then y[i] else z[i] := by
  simp only [GG_of_ge x y z h, BitVec.getElem_or, BitVec.getElem_and, BitVec.getElem_not]
  cases x[i] <;> simp

theorem FF_self (j : BitVec 6) : FF j x x x = x := by
  obtain h | h : j.toNat ≤ 15 ∨ 16 ≤ j.toNat := by omega
  · rw [FF_of_le x x x h, BitVec.xor_self, BitVec.zero_xor]
  · rw [FF_of_ge x x x h, BitVec.and_self, BitVec.or_self, BitVec.or_self]

/-- What `x` selects and what its complement selects do not meet. -/
theorem and_and_not_and_eq_zero : (x &&& y) &&& (~~~x &&& z) = 0#32 := by
  refine BitVec.eq_of_getElem_eq fun i hi => ?_
  simp only [BitVec.getElem_and, BitVec.getElem_not, BitVec.getElem_zero]
  cases x[i] <;> simp

theorem GG_eq_add_of_ge (h : 16 ≤ j.toNat) : GG j x y z = (x &&& y) + (~~~x &&& z) := by
  rw [GG_of_ge x y z h, BitVec.add_eq_or_of_and_eq_zero _ _ (and_and_not_and_eq_zero x y z)]

theorem GG_eq_xor_of_ge (h : 16 ≤ j.toNat) : GG j x y z = (x &&& y) ^^^ (~~~x &&& z) := by
  refine BitVec.eq_of_getElem_eq fun i hi => ?_
  simp only [GG_getElem_of_ge x y z h, BitVec.getElem_xor, BitVec.getElem_and, BitVec.getElem_not]
  cases x[i] <;> simp

end

/-- From round 16 the constant is one, so `TR` depends on the round modulo 32 alone. -/
theorem TR_eq_of_mod_eq {j k : BitVec 6} (hj : 16 ≤ j.toNat) (hk : 16 ≤ k.toNat) (h : j.toNat % 32 = k.toNat % 32) :
    TR j = TR k := by
  rw [TR, TR, T_of_ge hj, T_of_ge hk, h]

/-! ### The adder trees -/

theorem add3_toNat (x y z : Word) : (add3 x y z).toNat = (x.toNat + y.toNat + z.toNat) % 2 ^ 32 := by
  rw [add3, BitVec.toNat_add, BitVec.toNat_add, Nat.mod_add_mod]

theorem add4_toNat (x y z t : Word) : (add4 x y z t).toNat = (x.toNat + y.toNat + z.toNat + t.toNat) % 2 ^ 32 := by
  change (add3 x y z + t).toNat = _
  rw [BitVec.toNat_add, add3_toNat, Nat.mod_add_mod]

theorem add4_eq_balanced (x y z t : Word) : add4 x y z t = (x + y) + (z + t) := BitVec.add_assoc (x + y) z t

theorem add4_reverse (x y z t : Word) : add4 x y z t = add4 t z y x := by
  unfold add4
  ac_rfl

end Sys2Proof.Machine
end

-- ==== The obligations on the constants and the word functions (40_constants_and_word_functions.md) ====
section
namespace Sys2Proof.Machine

/-- Settles O36: the arithmetic from the shifted bits that do not meet, the other clauses bit by bit. -/
theorem rotationArithmetic : Obligations.RotationArithmetic := by
  unfold Obligations.RotationArithmetic
  exact ⟨rotl_toNat, rotl_of_mod_eq_zero, fun n => ⟨rotl_zero_word n, rotl_ones_word n⟩, rotl_rotl⟩

/-- Settles O37: `P0` applied twice has the doubled rotation amounts, so 32-fold `P0` is the identity. -/
theorem p0IsALinearBijection : Obligations.P0IsALinearBijection := by
  unfold Obligations.P0IsALinearBijection
  rw [P0_eq_xorRotations]
  exact ⟨fun _ => rfl, xorRotations_bijective 9 17, xorRotations_xor 9 17, xorRotations_zero 9 17, xorRotations_ones 9 17⟩

/-- Settles O39: each clause is one form of `FF` or `GG`, one bit at a time. -/
theorem booleanFunctionsBitByBit : Obligations.BooleanFunctionsBitByBit := by
  unfold Obligations.BooleanFunctionsBitByBit
  intro j x y z
  exact ⟨fun h i hi => ⟨FF_getElem_of_le x y z h i hi, GG_getElem_of_le x y z h i hi⟩,
    fun h i hi => ⟨FF_getElem_of_ge x y z h i hi, GG_getElem_of_ge x y z h i hi⟩,
    FF_self x j, fun h => ⟨GG_eq_xor_of_ge x y z h, GG_eq_add_of_ge x y z h⟩⟩

/-- Settles O38: rotation is linear and fixes both words. -/
theorem p1IsLinear : Obligations.P1IsLinear := by
  unfold Obligations.P1IsLinear
  rw [P1_eq_xorRotations]
  exact ⟨fun _ => rfl, xorRotations_xor 15 23, xorRotations_zero 15 23, xorRotations_ones 15 23⟩

/-- Settles O40: rounds `48 + k` and `16 + k` have one constant and one rotation amount. -/
theorem roundConstants : Obligations.RoundConstants := by
  unfold Obligations.RoundConstants
  refine ⟨fun _ => T_of_le, fun _ => T_of_ge, fun _ => rfl, fun k hk => ?_, by decide⟩
  have hlate : (BitVec.ofNat 6 (48 + k)).toNat = 48 + k := Nat.mod_eq_of_lt (by omega)
  have hearly : (BitVec.ofNat 6 (16 + k)).toNat = 16 + k := Nat.mod_eq_of_lt (by omega)
  exact TR_eq_of_mod_eq (by omega) (by omega) (by omega)

/-- Settles O41: a sum modulo `2^32` may be reduced early or late, and word addition is associative and commutative. -/
theorem adderTreesKeepTheLow32Bits : Obligations.AdderTreesKeepTheLow32Bits := by
  unfold Obligations.AdderTreesKeepTheLow32Bits
  exact ⟨BitVec.toNat_add, add3_toNat, fun x y z t => ⟨add4_toNat x y z t, add4_eq_balanced x y z t, add4_reverse x y z t⟩⟩

end Sys2Proof.Machine
end

-- ==== What PUSH writes, register by register ====
section
/-! PUSH as an update of the registers, with room in the buffer and without (41_commands_reset_write.md R95). -/

namespace Sys2Proof.Machine.State

theorem storeByte_eq (s : State) (b : Byte) :
    s.storeByte b = { s with buf := s.buf.set s.bufLen.toNat b s.bufLen.isLt } := by
  rw [storeByte, memWrite_one]

/-- With 63 bytes pending the fill position is the last byte of the buffer. -/
theorem buf_set_bufLen_of_full (s : State) (b : Byte) (h : s.bufLen = 63#6) :
    s.buf.set s.bufLen.toNat b s.bufLen.isLt = s.buf.set 63 b := by
  simp [h]

theorem push_eq_of_room (s : State) (b : Byte) (h : s.bufLen ≠ 63#6) :
    s.push b = { s with buf := s.buf.set s.bufLen.toNat b s.bufLen.isLt, bufLen := s.bufLen + 1 } := by
  rw [push_room s b h, storeByte_eq]
  rfl

theorem push_eq_of_full (s : State) (b : Byte) (h : s.bufLen = 63#6) :
    s.push b = { ({ s with buf := s.buf.set 63 b } : State).compress with bufLen := 0 } := by
  rw [push_full s b h, storeByte_eq, buf_set_bufLen_of_full s b h]
  rfl

theorem push_v_of_full (s : State) (b : Byte) (h : s.bufLen = 63#6) : (s.push b).v = CF s.v (s.buf.set 63 b) := by
  rw [push_eq_of_full s b h]
  exact compress_v _

theorem push_buf_of_full (s : State) (b : Byte) (h : s.bufLen = 63#6) : (s.push b).buf = s.buf.set 63 b := by
  rw [push_buf, buf_set_bufLen_of_full s b h]

/-- With room in the buffer a WBYTE writes `BUF[BUFLEN]`, `BUFLEN`, `LEN`, `SEQ` and one ACK (R97). -/
theorem absorb_eq_of_room (s : State) (b : Byte) (h : s.bufLen ≠ 63#6) : s.absorb b = { s with
    buf := s.buf.set s.bufLen.toNat b s.bufLen.isLt, bufLen := s.bufLen + 1, len := s.len + 1,
    rsp := s.rsp ++ [0x001#9], seq := .idle } := by
  rw [absorb_eq, push_countByte, push_eq_of_room s b h]
  rfl

@[simp] theorem absorb_l (s : State) (b : Byte) : (s.absorb b).l = s.l := by
  simp [absorb_eq]

end Sys2Proof.Machine.State
end

-- ==== WRITE as absorption ====
section
/-! In the length domain a WRITE absorbs its bytes, and several in a row absorb the bytes of all of them
(41_commands_reset_write.md R96, R99). -/

namespace Sys2Proof.Machine

namespace State

theorem goto_idle_of_idle {s : State} (hi : s.seq = .idle) : s.goto .idle = s := by
  rw [goto, ← hi]

/-- After some bytes the length domain has room for as many less: `LEN` has not wrapped. -/
theorem absorbAll_lengthInDomain (s : State) (bs : List Byte) (n : Nat)
    (h : s.lengthInDomain (bs.length + n) = true) : (s.absorbAll bs).lengthInDomain n = true := by
  rw [lengthInDomain_iff] at h ⊢
  intro hp
  have hroom := h (by simpa [absorbAll_eq] using hp)
  have hlen : (s.absorbAll bs).len = s.len + BitVec.ofNat 64 bs.length := by rw [absorbAll_eq]
  rw [hlen, BitVec.toNat_add, BitVec.toNat_ofNat]
  omega

end State

theorem execWrite_of_lengthInDomain (data : List Byte) (s : State) (h : s.lengthInDomain data.length = true) :
    execWrite data s = .next ((s.absorbAll data).goto .idle, data.length) := by
  rw [execWrite, h, Bool.or_true, if_pos rfl]

theorem execWrite_nil {s : State} (hi : s.seq = .idle) : execWrite [] s = .next (s, 0) := by
  show Host.Outcome.next (s.goto .idle, 0) = .next (s, 0)
  rw [State.goto_idle_of_idle hi]

theorem execWrites_of_lengthInDomain (chunks : List (List Byte)) {s : State} (hi : s.seq = .idle)
    (h : s.lengthInDomain chunks.flatten.length = true) :
    execWrites chunks s = .next ((s.absorbAll chunks.flatten).goto .idle) := by
  induction chunks generalizing s with
  | nil => exact congrArg Host.Outcome.next (State.goto_idle_of_idle hi).symm
  | cons d ds ih =>
    rw [List.flatten_cons, List.length_append] at h
    have hd : s.lengthInDomain d.length = true := State.lengthInDomain_mono (Nat.le_add_right _ _) h
    have hds : ((s.absorbAll d).goto .idle).lengthInDomain ds.flatten.length = true :=
      s.absorbAll_lengthInDomain d _ h
    rw [execWrites, execWrite_of_lengthInDomain d s hd]
    show execWrites ds ((s.absorbAll d).goto .idle) = _
    rw [ih rfl hds, State.absorbAll_goto, List.flatten_cons, State.absorbAll_append]
    rfl

end Sys2Proof.Machine
end

-- ==== The digest of the message absorbed ====
section
/-! From a state that has absorbed `m` since the last reset, bytes make the message longer and FINAL answers `SM3(m)`
(10_state.md R32; 42_finalize_padding_serialization.md R118). -/

namespace Sys2Proof.Machine

/-- The bit length of a byte count, both modulo `2^64`. -/
theorem bitLength_ofNat (n : Nat) : bitLength (BitVec.ofNat 64 n) = BitVec.ofNat 64 (n * 8) := by
  apply BitVec.eq_of_toNat_eq
  rw [bitLength_toNat, BitVec.toNat_ofNat, BitVec.toNat_ofNat, Nat.mod_mul_mod]

namespace State

/-- Right after a reset every message below the bound is in the length domain. -/
theorem lengthInDomain_of_arch_eq_initial {s : State} {n : Nat} (ha : s.arch = ArchState.initial) (hn : n < 2 ^ 61) :
    s.lengthInDomain n = true := by
  have hlen : s.len = 0#64 := congrArg ArchState.len ha
  rw [lengthInDomain_iff, hlen]
  intro _
  rwa [BitVec.toNat_zero, Nat.zero_add]

/-- The message absorbed is read from the architectural part and the policy. -/
theorem Holds.of_arch_eq {s t : State} {m : List Byte} (h : s.Holds m) (ha : t.arch = s.arch)
    (hp : t.policy = s.policy) : t.Holds m := by
  simp only [arch, ArchState.mk.injEq] at ha
  obtain ⟨hv, hpending, hbufLen, hlen⟩ := ha
  exact ⟨hlen.trans h.len, hv.trans h.v, by rw [hbufLen, h.bufLen], hpending.trans h.pending,
    fun hr => h.bound (hp.symm.trans hr)⟩

theorem Holds.absorbAll {s : State} {m : List Byte} (h : s.Holds m) (bs : List Byte)
    (hd : s.lengthInDomain bs.length = true) : (s.absorbAll bs).Holds (m ++ bs) := by
  induction bs generalizing s m with
  | nil =>
    rw [List.append_nil]
    exact h
  | cons b bs ih =>
    have hone : s.lengthInDomain 1 = true := lengthInDomain_mono (Nat.le_add_left 1 _) hd
    have hb : (s.countByte.push b).Holds (m ++ [b]) := (h.absorb b hone).of_arch_eq rfl rfl
    rw [List.append_cons]
    exact ih hb ((s.absorb_lengthInDomain b _ hone).trans hd)

theorem Holds.burst {s : State} {m : List Byte} (h : s.Holds m) (bs : List Byte)
    (hd : s.lengthInDomain bs.length = true) : (s.burst bs).Holds (m ++ bs) :=
  (h.absorbAll bs hd).of_arch_eq rfl rfl

/-- Hashing goes on behind the blocks already hashed, and the padding is the one of the whole message. -/
theorem Holds.digestBeats_eq {s : State} {m : List Byte} (h : s.Holds m) :
    s.arch.digestBeats = (sm3 m).toList.map digestBeat := by
  have hv : s.arch.v = hashWhole IV m := h.v
  have hpending : s.arch.pending = restOf m := h.pending
  have hbufLen : s.arch.bufLen.toNat = m.length % 64 := h.bufLen
  have hlen : s.arch.len = BitVec.ofNat 64 m.length := h.len
  rw [ArchState.digestBeats, hv, hpending, hbufLen, hlen, bitLength_ofNat, ← hashWhole_append]
  rfl

end State

/-- FINAL answers `SM3` of the message absorbed and resets. -/
theorem exec_final_of_holds {s : State} {m : List Byte} (h : s.Holds m) : ∃ u, exec .final s = .next u ∧
    u.rsp = s.rsp ++ (sm3 m).toList.map digestBeat ∧ u.arch = ArchState.initial ∧ u.seq = .idle ∧ u.cmd = s.cmd := by
  refine ⟨_, exec_final s, ?_, by simp, by simp, by simp⟩
  rw [← h.digestBeats_eq]
  exact s.final_rsp

theorem andThen_next_left {α β : Type} (a : α) (f : α → Host.Outcome β Fault Refusal) : andThen (.next a) f = f a := rfl

theorem runAll_append (is js : List Instr) (s : State) : runAll (is ++ js) s = andThen (runAll is s) (runAll js) := by
  induction is generalizing s with
  | nil => rfl
  | cons i is ih =>
    rw [List.cons_append, runAll_cons, runAll_cons]
    cases exec i s with
    | next t => exact ih t
    | fault r => rfl
    | refused r => rfl

theorem runAll_singleton (i : Instr) (s : State) : runAll [i] s = exec i s := andThen_next _

/-- The WBYTEs of a message and FINAL, on a core that is in the reset state (42_finalize_padding_serialization.md R118). -/
theorem runAll_wbytes_final_of_initial (m : List Byte) {s : State} (hi : s.seq = .idle)
    (ha : s.arch = ArchState.initial) (hm : m.length < 2 ^ 61) : ∃ u, runAll (m.map .wbyte ++ [.final]) s = .next u ∧
      u.rsp = s.rsp ++ List.replicate m.length (ackBeat 1) ++ (sm3 m).toList.map digestBeat ∧
      u.arch = ArchState.initial ∧ u.seq = .idle ∧ u.cmd = s.cmd := by
  have hd : s.lengthInDomain m.length = true := State.lengthInDomain_of_arch_eq_initial ha hm
  have hholds : (s.burst m).Holds m := (State.holds_nil_of_arch_eq_initial ha).burst m hd
  have hcmd : (s.burst m).cmd = s.cmd := by simp [State.burst, State.absorbAll_eq]
  obtain ⟨u, hexec, hrsp, harch, hseq, hcmd'⟩ := exec_final_of_holds hholds
  refine ⟨u, ?_, hrsp, harch, hseq, hcmd'.trans hcmd⟩
  rw [runAll_append, runAll_wbytes_eq_burst m s hi (.inr hd), andThen_next_left, runAll_singleton, hexec]

end Sys2Proof.Machine
end

-- ==== Beats run step by step ====
section
/-! No command looks at the channel, so a core that steps once per beat of a command sequence runs the sequence
(30_encoding.md R53; 70_reset_and_hazards.md R174). -/

namespace Sys2Proof.Machine

namespace State

theorem push_deliver (s : State) (cs : List Beat) (b : Byte) : (s.deliver cs).push b = (s.push b).deliver cs := by
  by_cases h : s.bufLen = 63#6
  · rw [push_full s b h, push_full (s.deliver cs) b h]
    apply ext_fields <;> simp [compress_eq]
  · rw [push_room s b h, push_room (s.deliver cs) b h]
    rfl

theorem pushAll_deliver (s : State) (cs : List Beat) (bs : List Byte) :
    (s.deliver cs).pushAll bs = (s.pushAll bs).deliver cs := by
  induction bs generalizing s with
  | nil => rfl
  | cons b bs ih =>
    show ((s.deliver cs).push b).pushAll bs = ((s.push b).pushAll bs).deliver cs
    rw [push_deliver, ih]

theorem absorb_deliver (s : State) (cs : List Beat) (b : Byte) : (s.deliver cs).absorb b = (s.absorb b).deliver cs := by
  rw [absorb_eq, absorb_eq, push_countByte, push_countByte, push_deliver]
  rfl

theorem padMessage_deliver (s : State) (cs : List Beat) : (s.deliver cs).padMessage = s.padMessage.deliver cs := by
  rw [padMessage_eq_pushAll, padMessage_eq_pushAll, pushAll_deliver]
  rfl

theorem emitDigest_toInitial_goto_deliver (s : State) (cs : List Beat) (p : Phase) :
    ((s.deliver cs).emitDigest.toInitial).goto p = (s.emitDigest.toInitial.goto p).deliver cs := rfl

/-- On an empty channel the delivered beats are consumed from the first. -/
theorem dropBeat_deliver_cons {s : State} (hc : s.cmd = []) (c : Beat) (cs : List Beat) :
    (s.deliver (c :: cs)).dropBeat = s.deliver cs := by
  rw [dropBeat, deliver, deliver, hc]
  rfl

end State

/-- A command leaves the beats on the channel where they are. -/
theorem exec_deliver (i : Instr) (s : State) (cs : List Beat) :
    exec i (s.deliver cs) = andThen (exec i s) fun t => .next (t.deliver cs) := by
  cases i with
  | reset => rfl
  | final =>
    have hlatch : (s.deliver cs).latchLength = s.latchLength.deliver cs := rfl
    rw [exec_final, exec_final, hlatch, State.padMessage_deliver, State.emitDigest_toInitial_goto_deliver,
      andThen_next_left]
  | wbyte b =>
    cases hd : s.lengthInDomain 1 with
    | false => rw [exec_wbyte_out b s hd, exec_wbyte_out b (s.deliver cs) hd]; rfl
    | true => rw [exec_wbyte_in b s hd, exec_wbyte_in b (s.deliver cs) hd, State.absorb_deliver]; rfl

/-- A command ends in IDLE with the channel as it was. -/
theorem idle_and_cmd_of_exec_eq_next {i : Instr} {s t : State} (h : exec i s = .next t) :
    t.seq = .idle ∧ t.cmd = s.cmd := by
  obtain ⟨-, rfl⟩ | ⟨-, rfl⟩ | ⟨b, -, -, rfl⟩ := exec_next_cases h
  · exact ⟨rfl, rfl⟩
  · exact ⟨rfl, by simp⟩
  · obtain ⟨-, -, -, -, -, hseq, hcmd, -⟩ := s.absorb_fields b
    exact ⟨hseq, hcmd⟩

/-- One step for the first beat: its command runs, the other beats stay. -/
theorem step_deliver_encode {s : State} (hi : s.seq = .idle) (hc : s.cmd = []) (i : Instr) (cs : List Beat) :
    step (s.deliver (encode i :: cs)) = andThen (exec i s) fun t => .next (t.deliver cs) := by
  have hhead : (s.deliver (encode i :: cs)).cmd = encode i :: cs := by rw [State.deliver_cmd, hc, List.nil_append]
  rw [step_command (s.deliver _) _ _ i hi hhead (decode_encode i), State.dropBeat_deliver_cons hc, exec_deliver]

/-- The beats of commands, run step by step through the decoder, are the commands run in order. -/
theorem runBeats_encodeAll (is : List Instr) {s : State} (hi : s.seq = .idle) (hc : s.cmd = []) :
    runBeats (encodeAll is) s = runAll is s := by
  induction is generalizing s with
  | nil =>
    show Host.Outcome.next (s.deliver []) = .next s
    rw [State.deliver, List.append_nil]
  | cons i is ih =>
    show andThen (step (s.deliver (encode i :: encodeAll is))) (stepN (encodeAll is).length) = _
    rw [step_deliver_encode hi hc, runAll_cons]
    cases hexec : exec i s with
    | next t =>
      obtain ⟨hseq, hcmd⟩ := idle_and_cmd_of_exec_eq_next hexec
      exact ih hseq (hcmd.trans hc)
    | fault r => rfl
    | refused r => rfl

end Sys2Proof.Machine
end

-- ==== The obligations on RESET, WBYTE, WRITE and DIGEST (41_commands_reset_write.md) ====
section
namespace Sys2Proof.Machine

/-- Settles O14, from WBYTE as count, PUSH and ACK. -/
theorem wbyteEffect : Obligations.WbyteEffect := by
  unfold Obligations.WbyteEffect
  intro s b hdom
  have hexec : exec (.wbyte b) s = .next (s.absorb b) := exec_wbyte_in b s ((s.lengthInDomain_iff 1).mpr hdom)
  refine ⟨fun hroom => ?_, fun hfull => ?_⟩
  · rw [hexec, s.absorb_eq_of_room b hroom]
  · obtain ⟨-, -, hbufLen, hlen, hrsp, hseq, hcmd, hpolicy⟩ := s.absorb_fields b
    refine ⟨s.absorb b, hexec, s.absorb_v_of_full b hfull, ?_, ?_, hlen, hrsp, hseq, s.absorb_l b, hcmd, hpolicy⟩
    · rw [s.absorb_buf b, s.buf_set_bufLen_of_full b hfull]
    · rw [hbufLen, hfull]
      rfl

/-- Settles O15, by whether the byte completes a block. -/
theorem pushStoresThenCompresses : Obligations.PushStoresThenCompresses := by
  unfold Obligations.PushStoresThenCompresses
  intro s b
  exact ⟨s.push_eq_of_room b,
    fun hfull => ⟨s.push_eq_of_full b hfull, s.push_v_of_full b hfull, s.push_buf_of_full b hfull⟩,
    s.push_len b, s.push_l b, s.push_seq b, s.push_cmd b, s.push_rsp b, s.push_policy b⟩

/-- Settles O18: WRITE absorbs its bytes, and absorbing is a run of PUSHes and a count. -/
theorem writeClosedForm : Obligations.WriteClosedForm := by
  unfold Obligations.WriteClosedForm
  intro s data hdom
  obtain ⟨hbeats, -⟩ := pseudoCommandsExpand
  obtain ⟨-, hline⟩ := hbeats data
  have hwrite := execWrite_of_lengthInDomain data s ((s.lengthInDomain_iff _).mpr hdom)
  have hlength : (s.pending ++ data).length = s.bufLen.toNat + data.length := by
    rw [List.length_append, s.pending_length]
  obtain ⟨hv, hpending, hbufLen⟩ := s.pushAll_spec data
  rw [hlength] at hv hpending hbufLen
  rw [s.absorbAll_eq data] at hwrite
  exact ⟨hline, _, hwrite, hv, hpending, hbufLen, rfl, rfl, s.pushAll_l data, s.pushAll_cmd data, s.pushAll_rsp data,
    s.pushAll_policy data⟩

/-- Settles O19: the one WRITE and the WRITEs of the chunks absorb the same bytes. -/
theorem streamingEquivalence : Obligations.StreamingEquivalence := by
  unfold Obligations.StreamingEquivalence
  intro s chunks hi hdom
  have hd := (s.lengthInDomain_iff chunks.flatten.length).mpr hdom
  exact ⟨_, execWrite_of_lengthInDomain chunks.flatten s hd, execWrites_of_lengthInDomain chunks hi hd⟩

/-- Settles O27: the beats are run as RESET, the WBYTEs and FINAL, and the RESET discards what was absorbed. -/
theorem digestBeatsComputeSM3 : Obligations.DigestBeatsComputeSM3 := by
  unfold Obligations.DigestBeatsComputeSM3
  intro s data hi hc hlength
  obtain ⟨u, hrun, hrsp, harch, hseq, hcmd⟩ :=
    runAll_wbytes_final_of_initial data (s := s.toInitial.goto .idle) rfl s.toInitial_arch hlength
  refine ⟨u, ?_, hrsp, harch, hseq, hcmd.trans hc⟩
  calc runBeats (lineBeats (.digest data)) s
    _ = runAll (expandLine (.digest data)) s := runBeats_encodeAll _ hi hc
    _ = runAll (data.map .wbyte ++ [.final]) (s.toInitial.goto .idle) := rfl
    _ = .next u := hrun

/-- Settles O28: after the RESET the message absorbed is the data alone. -/
theorem digestCommandComputesSM3 : Obligations.DigestCommandComputesSM3 := by
  unfold Obligations.DigestCommandComputesSM3
  intro s data hlength
  have ha : (s.toInitial.goto .idle).arch = ArchState.initial := s.toInitial_arch
  have hd := State.lengthInDomain_of_arch_eq_initial ha hlength
  have hholds : (((s.toInitial.goto .idle).absorbAll data).goto .idle).Holds data :=
    ((State.holds_nil_of_arch_eq_initial ha).absorbAll data hd).of_arch_eq rfl rfl
  obtain ⟨u, hfinal, hrsp, harch, hseq, -⟩ := exec_final_of_holds hholds
  refine ⟨u, ?_, ?_, harch, hseq⟩
  · show andThen (execWrite data (s.toInitial.goto .idle)) (fun r => execFinal r.1) = _
    rw [execWrite_of_lengthInDomain data _ hd]
    exact hfinal
  · rw [hrsp]
    simp [State.absorbAll_eq]

/-- Settles O12, from RESET as the reset assignment. -/
theorem resetCommandEffect : Obligations.ResetCommandEffect := by
  unfold Obligations.ResetCommandEffect
  refine ⟨rfl, fun s => ⟨_, exec_reset s, rfl, rfl, rfl, ?_, rfl, rfl, rfl, rfl⟩⟩
  exact congrArg ArchState.pending s.toInitial_arch

/-- Settles O17: no bytes are no loop, and IDLE is where the core already is. -/
theorem emptyWriteChangesNothing : Obligations.EmptyWriteChangesNothing := by
  unfold Obligations.EmptyWriteChangesNothing
  exact ⟨fun _ => execWrite_nil, rfl⟩

end Sys2Proof.Machine
end

-- ==== Runs of micro-steps ====
section
/-! Runs of the sequencer that stay inside given phases until they end (43_compression.md R131, R132), and how they are put
together. -/

namespace Sys2Proof.Machine

/-- The phases of a command in progress (10_state.md R26). -/
def Phase.Busy (p : Phase) : Prop := p ≠ .idle

/-- The phases of a COMPRESS that `caller` waits for (43_compression.md R131). -/
def Phase.CompressingFor (caller : PushPhase) (p : Phase) : Prop :=
  p ∈ [Phase.cLoad caller, .cExpand caller, .cRound caller, .cFeed caller]

theorem Phase.CompressingFor.busy {caller : PushPhase} {p : Phase} (h : p.CompressingFor caller) : p.Busy := by
  rintro rfl
  simp [CompressingFor] at h

namespace State

/-- `n` micro-steps lead from `s` to `t`, and each of them starts in a phase of `P`. -/
def Runs (P : Phase → Prop) (n : Nat) (s t : State) : Prop :=
  s.microSteps n = t ∧ ∀ k, k < n → P (s.microSteps k).seq

variable {P Q : Phase → Prop} {m n : Nat} {s t u : State}

theorem Runs.refl (P : Phase → Prop) (s : State) : Runs P 0 s s := ⟨rfl, fun _ hk => absurd hk (Nat.not_lt_zero _)⟩

theorem Runs.cons (hs : P s.seq) (h : Runs P n s.micro t) : Runs P (n + 1) s t := by
  obtain ⟨hend, hphases⟩ := h
  refine ⟨hend, fun k hk => ?_⟩
  cases k with
  | zero => exact hs
  | succ k => exact hphases k (Nat.lt_of_succ_lt_succ hk)

theorem Runs.one (hs : P s.seq) (h : s.micro = t) : Runs P 1 s t := by
  rw [← h]
  exact .cons hs (.refl P _)

theorem Runs.trans (hst : Runs P m s t) (htu : Runs P n t u) : Runs P (m + n) s u := by
  induction m generalizing s with
  | zero =>
    obtain ⟨rfl, -⟩ := hst
    rwa [Nat.zero_add]
  | succ m ih =>
    obtain ⟨hend, hphases⟩ := hst
    rw [Nat.succ_add]
    exact .cons (hphases 0 m.succ_pos) (ih ⟨hend, fun k hk => hphases (k + 1) (Nat.succ_lt_succ hk)⟩)

theorem Runs.mono (hPQ : ∀ p, P p → Q p) (h : Runs P n s t) : Runs Q n s t := by
  obtain ⟨hend, hphases⟩ := h
  exact ⟨hend, fun k hk => hPQ _ (hphases k hk)⟩

end State

end Sys2Proof.Machine
end

-- ==== The rows of COMPRESS ====
section
/-! From `C_LOAD` the `C_` rows do COMPRESS in 67 micro-steps and end in the phase that called (43_compression.md R131, R132,
R137). The lemmas write the phase as a `goto`, so that the registers and the phase stand apart. -/

namespace Sys2Proof.Machine.State

section
variable (s : State) (caller : PushPhase)

theorem micro_cLoad : (s.goto (.cLoad caller)).micro = s.loadw.goto (.cExpand caller) := rfl

theorem micro_cExpand : (s.goto (.cExpand caller)).micro = s.expand.initWork.goto (.cRound caller) := rfl

theorem roundRow_of_last (h : s.j = 63#6) : s.roundRow caller = s.round.goto (.cFeed caller) := by
  simp [roundRow, lastRound, h]

theorem roundRow_of_not_last (h : s.j ≠ 63#6) : s.roundRow caller = s.round.nextRound.goto (.cRound caller) := by
  simp [roundRow, lastRound, h]

theorem micro_cFeed : (s.goto (.cFeed caller)).micro = (s.feedfwd.setBufLen 0).goto caller.resume := rfl

/-- The `C_ROUND` rows from `n` rounds before the last. -/
theorem runs_cRound (n : Nat) (hj : s.j.toNat + n = 63) :
    Runs (Phase.CompressingFor caller) (n + 1) (s.goto (.cRound caller)) ((State.rounds n s).goto (.cFeed caller)) := by
  have hphase : Phase.CompressingFor caller (s.goto (.cRound caller)).seq := by simp [Phase.CompressingFor]
  induction n generalizing s with
  | zero =>
    exact .one hphase (roundRow_of_last (s.goto _) caller (BitVec.eq_of_toNat_eq hj))
  | succ n ih =>
    have hne : s.j ≠ 63#6 := by
      intro h
      simp [h] at hj
    have hnext : s.round.nextRound.j.toNat + n = 63 := by
      rw [nextRound_j, round_j, bufLen_succ_toNat s.j hne]
      omega
    have hround : Runs (Phase.CompressingFor caller) 1 (s.goto (.cRound caller))
        (s.round.nextRound.goto (.cRound caller)) := .one hphase (roundRow_of_not_last (s.goto _) caller hne)
    rw [Nat.add_comm]
    exact hround.trans (ih s.round.nextRound hnext hphase)

/-- COMPRESS row by row: one micro-step for LOADW, one for EXPAND and INIT, 64 for the rounds, one for FEEDFWD. -/
theorem runs_compress : Runs (Phase.CompressingFor caller) 67 (s.goto (.cLoad caller))
    ((s.compress.setBufLen 0).goto caller.resume) := by
  have hload : Runs (Phase.CompressingFor caller) 1 (s.goto (.cLoad caller)) (s.loadw.goto (.cExpand caller)) :=
    .one (by simp [Phase.CompressingFor]) (s.micro_cLoad caller)
  have hexpand : Runs (Phase.CompressingFor caller) 1 (s.loadw.goto (.cExpand caller))
      (s.loadw.expand.initWork.goto (.cRound caller)) :=
    .one (by simp [Phase.CompressingFor]) (s.loadw.micro_cExpand caller)
  have hrounds := s.loadw.expand.initWork.runs_cRound caller 63 rfl
  have hfeed : Runs (Phase.CompressingFor caller) 1 _ ((s.compress.setBufLen 0).goto caller.resume) :=
    .one (by simp [Phase.CompressingFor]) (micro_cFeed (State.rounds 63 s.loadw.expand.initWork) caller)
  exact (hload.trans (hexpand.trans (hrounds.trans hfeed)) :)

end

end Sys2Proof.Machine.State
end

-- ==== The rows that PUSH ====
section
/-! A row that pushes a byte takes one micro-step, and 68 more where the byte completes a block; so a phase that pushes bytes
takes a number of micro-steps that `BUFLEN` and the number of bytes decide
(42_finalize_padding_serialization.md R119; 43_compression.md R132). -/

namespace Sys2Proof.Machine

/-- The micro-steps of `k` PUSHes from a buffer of `n` bytes: one for each, and 68 for each block they complete. -/
def pushSteps (n k : Nat) : Nat := k + 68 * ((n + k) / 64)

theorem pushSteps_zero {n : Nat} (hn : n < 64) : pushSteps n 0 = 0 := by
  unfold pushSteps
  omega

theorem pushSteps_succ (n k : Nat) : pushSteps n (k + 1) = pushSteps n 1 + pushSteps ((n + 1) % 64) k := by
  unfold pushSteps
  omega

namespace State

theorem pushSteps_one_of_room {s : State} (h : s.bufLen ≠ 63#6) : pushSteps s.bufLen.toNat 1 = 1 := by
  have hlt := (s.bufLen + 1).isLt
  rw [bufLen_succ_toNat _ h] at hlt
  unfold pushSteps
  omega

theorem pushSteps_one_of_full {s : State} (h : s.bufLen = 63#6) : pushSteps s.bufLen.toNat 1 = 69 := by
  rw [h]
  rfl

theorem push_bufLen_toNat (s : State) (b : Byte) : (s.push b).bufLen.toNat = (s.bufLen.toNat + 1) % 64 := by
  rw [push_bufLen, BitVec.toNat_add]
  rfl

section
variable (s : State) (b : Byte)

theorem pushRow_of_room (caller : PushPhase) (next : Phase) (h : s.bufLen ≠ 63#6) :
    s.pushRow b caller next = (s.push b).goto next := by
  simp [pushRow, bufLast, push_room, h]

theorem pushRow_of_full (caller : PushPhase) (next : Phase) (h : s.bufLen = 63#6) :
    s.pushRow b caller next = (s.storeByte b).goto (.cLoad caller) := by
  simp [pushRow, bufLast, h]

theorem absorbRow_of_room (h : s.bufLen ≠ 63#6) : s.absorbRow b = s.absorb b := by
  rw [absorb_eq, push_room s.countByte b h]
  simp [absorbRow, bufLast, acknowledge, h]

theorem absorbRow_of_full (h : s.bufLen = 63#6) :
    s.absorbRow b = (s.countByte.storeByte b).goto (.cLoad (.absorb b)) := by
  simp [absorbRow, bufLast, h]

/-- The store that fills the buffer, COMPRESS, and the return to the phase that called. -/
theorem runs_push_of_full (caller : PushPhase) (h : s.bufLen = 63#6) :
    Runs Phase.Busy 67 ((s.storeByte b).goto (.cLoad caller)) ((s.push b).goto caller.resume) := by
  rw [push_full s b h]
  exact ((s.storeByte b).runs_compress caller).mono fun _ => Phase.CompressingFor.busy

/-- A phase whose row pushes a byte and which goes on to `next` once COMPRESS has returned. -/
theorem runs_pushRow {p next : Phase} {caller : PushPhase} (hp : p.Busy) (hresume : caller.resume.Busy)
    (hrow : (s.goto p).micro = s.pushRow b caller next)
    (hreturn : ((s.push b).goto caller.resume).micro = (s.push b).goto next) :
    Runs Phase.Busy (pushSteps s.bufLen.toNat 1) (s.goto p) ((s.push b).goto next) := by
  by_cases h : s.bufLen = 63#6
  · have hstore : Runs Phase.Busy 1 (s.goto p) ((s.storeByte b).goto (.cLoad caller)) :=
      .one hp (hrow.trans (s.pushRow_of_full b caller next h))
    rw [pushSteps_one_of_full h]
    exact (hstore.trans ((s.runs_push_of_full b caller h).trans (.one hresume hreturn)) :)
  · rw [pushSteps_one_of_room h]
    exact .one hp (hrow.trans (s.pushRow_of_room b caller next h))

/-- `WBYTE` row by row. -/
theorem runs_absorb : ∃ n, n ≤ 256 ∧ Runs Phase.Busy n (s.goto (.absorb b false)) (s.absorb b) := by
  have hphase : (Phase.absorb b false).Busy := nofun
  by_cases h : s.bufLen = 63#6
  · have hstore : Runs Phase.Busy 1 (s.goto (.absorb b false)) ((s.countByte.storeByte b).goto (.cLoad (.absorb b))) :=
      .one hphase (s.absorbRow_of_full b h)
    have hack : Runs Phase.Busy 1 ((s.countByte.push b).goto (.absorb b true)) (s.absorb b) := .one nofun rfl
    exact ⟨_, by decide, hstore.trans ((s.countByte.runs_push_of_full b (.absorb b) h).trans hack)⟩
  · exact ⟨1, by decide, .one hphase (s.absorbRow_of_room b h)⟩

end

/-! ### The phases of FINAL -/

/-- `F_MARK`. -/
theorem runs_fMark (s : State) :
    Runs Phase.Busy (pushSteps s.bufLen.toNat 1) (s.goto (.fMark false)) ((s.push padMark).goto (.fZero false)) :=
  s.runs_pushRow padMark (caller := .fMark) nofun nofun rfl rfl

theorem fillRow_of_atLengthField {s : State} (h : s.bufLen = 56#6) : s.fillRow = s.goto (.fLen 0 false) := by
  simp [fillRow, atLengthField, h]

theorem fillRow_of_not_atLengthField {s : State} (h : s.bufLen ≠ 56#6) :
    s.fillRow = s.pushRow padFill .fZero (.fZero false) := by
  simp [fillRow, atLengthField, h]

/-- The `F_ZERO` rows push zero bytes until `BUFLEN` is 56, and one micro-step more ends them. -/
theorem runs_fZero (k : Nat) (s : State) (hk : (120 - s.bufLen.toNat) % 64 = k) :
    Runs Phase.Busy (pushSteps s.bufLen.toNat k + 1) (s.goto (.fZero false))
      ((s.pushAll (List.replicate k padFill)).goto (.fLen 0 false)) := by
  have hlt := s.bufLen.isLt
  induction k generalizing s with
  | zero =>
    have h56 : s.bufLen = 56#6 := BitVec.eq_of_toNat_eq (by rw [BitVec.toNat_ofNat]; omega)
    rw [pushSteps_zero hlt]
    exact .one nofun (fillRow_of_atLengthField (s := s.goto _) h56)
  | succ k ih =>
    have hne : s.bufLen ≠ 56#6 := by
      intro h
      simp [h] at hk
    have hbyte := s.runs_pushRow padFill (p := .fZero false) (next := .fZero false) (caller := .fZero) nofun nofun
      (fillRow_of_not_atLengthField (s := s.goto _) hne) rfl
    have hrest := ih (s.push padFill) (by rw [push_bufLen_toNat]; omega) (s.push padFill).bufLen.isLt
    rw [push_bufLen_toNat] at hrest
    rw [pushSteps_succ, Nat.add_assoc]
    exact hbyte.trans hrest

/-! `F_LEN` and `F_SER` count bytes with an index that ends at its largest value. -/

theorem index_succ_toNat {w : Nat} (i : BitVec w) (h : i.toNat + 1 < 2 ^ w) : (i + 1).toNat = i.toNat + 1 := by
  have hone : (1 : BitVec w).toNat = 1 := (BitVec.toNat_ofNat 1 w).trans (Nat.mod_eq_of_lt (by omega))
  rw [BitVec.toNat_add_of_lt (by rwa [hone]), hone]

theorem drop_toList_eq_cons {α : Type} {n : Nat} (xs : Vector α n) (i : Nat) (h : i < n) :
    xs.toList.drop i = xs[i] :: xs.toList.drop (i + 1) :=
  List.drop_eq_getElem_cons (by rwa [Vector.length_toList])

theorem drop_toList_eq_singleton {α : Type} {n : Nat} (xs : Vector α n) (i : Nat) (h : i + 1 = n) :
    xs.toList.drop i = [xs[i]] := by
  rw [drop_toList_eq_cons xs i (by omega), List.drop_of_length_le (by rw [Vector.length_toList, h])]

theorem afterLengthByte_of_lt {i : BitVec 3} (h : i.toNat < 7) : afterLengthByte i = .fLen (i + 1) false :=
  if_neg fun h7 => by simp [h7] at h

theorem afterLengthByte_of_last {i : BitVec 3} (h : i.toNat = 7) : afterLengthByte i = .fSer 0 :=
  if_pos (BitVec.eq_of_toNat_eq h)

theorem afterDigestByte_of_lt {i : BitVec 5} (h : i.toNat < 31) : afterDigestByte i = .fSer (i + 1) :=
  if_neg fun h31 => by simp [h31] at h

theorem afterDigestByte_of_last {i : BitVec 5} (h : i.toNat = 31) : afterDigestByte i = .fReset :=
  if_pos (BitVec.eq_of_toNat_eq h)

/-- The `F_LEN` row of byte `i`. -/
theorem runs_fLen_byte (i : BitVec 3) (s : State) : Runs Phase.Busy (pushSteps s.bufLen.toNat 1) (s.goto (.fLen i false))
    ((s.push (be64 s.l)[i.toNat]).goto (afterLengthByte i)) :=
  s.runs_pushRow (be64 s.l)[i.toNat] (caller := .fLen i) nofun nofun rfl rfl

/-- The `F_LEN` rows push the last `k + 1` bytes of the length field. -/
theorem runs_fLen (k : Nat) (i : BitVec 3) (s : State) (hi : i.toNat + k = 7) :
    Runs Phase.Busy (pushSteps s.bufLen.toNat (k + 1)) (s.goto (.fLen i false))
      ((s.pushAll ((be64 s.l).toList.drop i.toNat)).goto (.fSer 0)) := by
  induction k generalizing i s with
  | zero =>
    have hbyte := s.runs_fLen_byte i
    rw [afterLengthByte_of_last hi] at hbyte
    rw [drop_toList_eq_singleton _ _ (by omega)]
    exact hbyte
  | succ k ih =>
    have hsucc : (i + 1).toNat = i.toNat + 1 := index_succ_toNat i (by omega)
    have hbyte := s.runs_fLen_byte i
    have hrest := ih (i + 1) (s.push (be64 s.l)[i.toNat]) (by omega)
    rw [afterLengthByte_of_lt (by omega)] at hbyte
    rw [push_bufLen_toNat, push_l, hsucc] at hrest
    rw [pushSteps_succ, drop_toList_eq_cons _ _ i.isLt]
    exact hbyte.trans hrest

theorem runs_lengthField (s : State) : Runs Phase.Busy (pushSteps s.bufLen.toNat 8) (s.goto (.fLen 0 false))
    ((s.pushAll (be64 s.l).toList).goto (.fSer 0)) := by
  have hall := runs_fLen 7 0#3 s rfl
  rwa [BitVec.toNat_zero, List.drop_zero] at hall

/-- Append beats to the response channel. -/
def emitAll (s : State) (rs : List Response) : State := { s with rsp := s.rsp ++ rs }

theorem emitDigest_eq_emitAll (s : State) : s.emitDigest = s.emitAll ((serialize s.v).toList.map digestBeat) := rfl

theorem emitAll_cons (s : State) (r : Response) (rs : List Response) : s.emitAll (r :: rs) = (s.emit r).emitAll rs := by
  rw [emitAll, emitAll, emit_rsp, ← List.append_cons]
  rfl

/-- The `F_SER` row of byte `i`. -/
theorem runs_fSer_byte (i : BitVec 5) (s : State) : Runs Phase.Busy 1 (s.goto (.fSer i))
    ((s.emit (digestBeat (serialize s.v)[i.toNat])).goto (afterDigestByte i)) :=
  .one nofun rfl

/-- The `F_SER` rows emit the last `k + 1` bytes of the digest. -/
theorem runs_fSer (k : Nat) (i : BitVec 5) (s : State) (hi : i.toNat + k = 31) : Runs Phase.Busy (k + 1) (s.goto (.fSer i))
    ((s.emitAll (((serialize s.v).toList.drop i.toNat).map digestBeat)).goto .fReset) := by
  induction k generalizing i s with
  | zero =>
    have hbyte := s.runs_fSer_byte i
    rw [afterDigestByte_of_last hi] at hbyte
    rw [drop_toList_eq_singleton _ _ (by omega)]
    exact hbyte
  | succ k ih =>
    have hsucc : (i + 1).toNat = i.toNat + 1 := index_succ_toNat i (by omega)
    have hbyte := s.runs_fSer_byte i
    have hrest := ih (i + 1) (s.emit (digestBeat (serialize s.v)[i.toNat])) (by omega)
    rw [afterDigestByte_of_lt (by omega)] at hbyte
    rw [emit_v, hsucc] at hrest
    rw [drop_toList_eq_cons _ _ i.isLt, List.map_cons, emitAll_cons, Nat.add_comm]
    exact hbyte.trans hrest

theorem runs_digest (s : State) : Runs Phase.Busy 32 (s.goto (.fSer 0)) (s.emitDigest.goto .fReset) := by
  have hall := runs_fSer 31 0#5 s rfl
  rwa [BitVec.toNat_zero, List.drop_zero, ← emitDigest_eq_emitAll] at hall

theorem runs_fReset (s : State) : Runs Phase.Busy 1 (s.goto .fReset) (s.toInitial.goto .idle) := .one nofun rfl

theorem runs_fLatch (s : State) : Runs Phase.Busy 1 (s.goto .fLatch) (s.latchLength.goto (.fMark false)) := .one nofun rfl

/-- The padding row by row: at most 72 bytes, which complete at most two blocks, and the end of the fill loop. -/
theorem runs_padMessage (s : State) : ∃ n, n ≤ 209 ∧
    Runs Phase.Busy n (s.goto (.fMark false)) (s.padMessage.goto (.fSer 0)) := by
  have hmark := s.runs_fMark
  have hfill := runs_fZero _ (s.push padMark) rfl
  rw [← zeroFill_63] at hfill
  have hfield := runs_lengthField ((s.push padMark).zeroFill 63)
  rw [zeroFill_l, push_l] at hfield
  refine ⟨_, ?_, hmark.trans (hfill.trans hfield)⟩
  have hlt := s.bufLen.isLt
  have hlt' := ((s.push padMark).zeroFill 63).bufLen.isLt
  rw [push_bufLen_toNat]
  unfold pushSteps
  omega

/-- `FINAL` row by row. -/
theorem runs_final (s : State) : ∃ n, n ≤ 256 ∧
    Runs Phase.Busy n (s.goto .fLatch) (s.latchLength.padMessage.emitDigest.toInitial.goto .idle) := by
  obtain ⟨n, hn, hpad⟩ := s.latchLength.runs_padMessage
  have hdigest := runs_digest s.latchLength.padMessage
  exact ⟨1 + (n + (32 + 1)), by omega, s.runs_fLatch.trans (hpad.trans (hdigest.trans (runs_fReset _)))⟩

end State

end Sys2Proof.Machine
end

-- ==== From the IDLE row to the end of a command ====
section
/-! The IDLE row begins the run of a command's rows, or refuses the command as the one action does
(42_finalize_padding_serialization.md R119; 41_commands_reset_write.md R93, R97). -/

namespace Sys2Proof.Machine

theorem accept_reset (s : State) : s.accept .reset = .next (s.toInitial.goto .idle) := rfl

theorem accept_final (s : State) : s.accept .final = .next (s.goto .fLatch) := rfl

theorem accept_wbyte_in (b : Byte) (s : State) (h : s.lengthInDomain 1 = true) :
    s.accept (.wbyte b) = .next (s.goto (.absorb b false)) := if_pos h

theorem accept_wbyte_out (b : Byte) (s : State) (h : s.lengthInDomain 1 = false) :
    s.accept (.wbyte b) = .refused .lengthOverflow := if_neg (ne_true_of_eq_false h)

/-- A command as one action is a run of its rows. -/
theorem accept_runs_of_exec_eq_next {i : Instr} {s t : State} (h : exec i s = .next t) :
    ∃ s0 n, s.accept i = .next s0 ∧ n ≤ 256 ∧ State.Runs Phase.Busy n s0 t := by
  obtain ⟨rfl, rfl⟩ | ⟨rfl, rfl⟩ | ⟨b, rfl, hd, rfl⟩ := exec_next_cases h
  · exact ⟨_, 0, accept_reset s, Nat.zero_le _, .refl _ _⟩
  · obtain ⟨n, hn, hruns⟩ := s.runs_final
    exact ⟨_, n, accept_final s, hn, hruns⟩
  · obtain ⟨n, hn, hruns⟩ := s.runs_absorb b
    exact ⟨_, n, accept_wbyte_in b s hd, hn, hruns⟩

theorem accept_eq_refused_of_exec_eq_refused {i : Instr} {s : State} {r : Refusal} (h : exec i s = .refused r) :
    s.accept i = .refused r := by
  cases i with
  | reset => rw [exec_reset] at h; cases h
  | final => rw [exec_final] at h; cases h
  | wbyte b =>
    cases hd : s.lengthInDomain 1 with
    | true => rw [exec_wbyte_in b s hd] at h; cases h
    | false =>
      rw [exec_wbyte_out b s hd] at h
      cases h
      exact accept_wbyte_out b s hd

end Sys2Proof.Machine
end

-- ==== How long the padding is ====
section
/-! The length of `PAD(n, L)` and where its bytes leave the fill count (42_finalize_padding_serialization.md R109 to R111,
R120). -/

namespace Sys2Proof.Machine

theorem pad_length (n : Nat) (l : BitVec 64) : (pad n l).length = 1 + padFillCount n + 8 := by
  rw [pad, List.length_append, List.length_append, List.length_replicate, Vector.length_toList, List.length_singleton]

theorem padFillCount_of_le {n : Nat} (h : n ≤ 55) : padFillCount n = 55 - n := by
  unfold padFillCount
  omega

theorem padFillCount_of_ge {n : Nat} (h : 56 ≤ n) (hn : n < 64) : padFillCount n = 119 - n := by
  unfold padFillCount
  omega

namespace State

/-- The pending bytes and their padding are one block or two. -/
theorem pending_append_pad_length (s : State) (l : BitVec 64) :
    (s.pending ++ pad s.bufLen.toNat l).length = 64 * 1 ∨ (s.pending ++ pad s.bufLen.toNat l).length = 64 * 2 := by
  have hlt := s.bufLen.isLt
  rw [List.length_append, pending_length, pad_length]
  obtain h | h : s.bufLen.toNat ≤ 55 ∨ 56 ≤ s.bufLen.toNat := by omega
  · rw [padFillCount_of_le h]
    omega
  · rw [padFillCount_of_ge h hlt]
    omega

theorem pushAll_bufLen_toNat (s : State) (bs : List Byte) :
    (s.pushAll bs).bufLen.toNat = (s.bufLen.toNat + bs.length) % 64 := by
  obtain ⟨-, -, hbufLen⟩ := s.pushAll_spec bs
  rw [hbufLen, List.length_append, pending_length]

theorem zeroFill_63_bufLen (s : State) : (s.zeroFill 63).bufLen = 56#6 := by
  have hlt := s.bufLen.isLt
  apply BitVec.eq_of_toNat_eq
  rw [zeroFill_63, pushAll_bufLen_toNat, List.length_replicate, BitVec.toNat_ofNat]
  omega

theorem padMessage_bufLen (s : State) : s.padMessage.bufLen = 0#6 := by
  apply BitVec.eq_of_toNat_eq
  rw [padMessage, pushAll_bufLen_toNat, zeroFill_63_bufLen, Vector.length_toList]
  rfl

end State

end Sys2Proof.Machine
end

-- ==== The obligations on FINAL, padding and the sequencer (42_finalize_padding_serialization.md) ====
section
namespace Sys2Proof.Machine

/-- FINAL leaves the reset state, whatever it found. -/
theorem exec_final_arch (s : State) : ∃ t, exec .final s = .next t ∧ t.arch = ArchState.initial ∧ t.seq = .idle :=
  ⟨_, exec_final s, by simp, by simp⟩

/-- Settles O35: the rows of each command are put together from the rows of COMPRESS and of PUSH, counted in micro-steps. -/
theorem sequencerRefinesCommands : Obligations.SequencerRefinesCommands := by
  unfold Obligations.SequencerRefinesCommands
  intro s i _
  refine ⟨fun t h => ?_, fun r => accept_eq_refused_of_exec_eq_refused⟩
  obtain ⟨hidle, -⟩ := idle_and_cmd_of_exec_eq_next h
  obtain ⟨s0, n, haccept, hn, hend, hbusy⟩ := accept_runs_of_exec_eq_next h
  exact ⟨s0, n, haccept, hn, hend, hidle, hbusy⟩

/-- Settles O22: FINAL answers the digest of the architectural state and resets. -/
theorem finalEmitsTheDigestAndResets : Obligations.FinalEmitsTheDigestAndResets := by
  unfold Obligations.FinalEmitsTheDigestAndResets
  refine ⟨rfl, fun s => ⟨_, exec_final s, s.pending_append_pad_length _, s.final_rsp, ?_⟩⟩
  simp [State.pending]

/-- Settles O23: the mark and the fill bytes end at `BUFLEN = 56`, and the eight length bytes complete the block. -/
theorem paddingPipelinePushesPad : Obligations.PaddingPipelinePushesPad := by
  unfold Obligations.PaddingPipelinePushesPad
  exact ⟨fun _ _ => rfl, fun s => ⟨s.padMessage_eq_pushAll, State.zeroFill_63_bufLen _, s.padMessage_bufLen⟩⟩

/-- Settles O26: the WRITEs absorb the concatenation of their data. -/
theorem writesThenFinalComputeSM3 : Obligations.WritesThenFinalComputeSM3 := by
  unfold Obligations.WritesThenFinalComputeSM3
  intro s chunks hi ha hlength
  have hd := State.lengthInDomain_of_arch_eq_initial ha hlength
  have hholds : ((s.absorbAll chunks.flatten).goto .idle).Holds chunks.flatten :=
    ((State.holds_nil_of_arch_eq_initial ha).absorbAll chunks.flatten hd).of_arch_eq rfl rfl
  obtain ⟨u, hfinal, hrsp, harch, hseq, -⟩ := exec_final_of_holds hholds
  refine ⟨u, ?_, ?_, harch, hseq⟩
  · rw [execWrites_of_lengthInDomain chunks hi hd]
    exact hfinal
  · rw [hrsp]
    simp [State.absorbAll_eq]

/-- Settles O29: FINAL leaves the reset state, from which the next message is hashed, the empty one included. -/
theorem reuseAfterFinal : Obligations.ReuseAfterFinal := by
  unfold Obligations.ReuseAfterFinal
  refine ⟨fun s m hm => ?_, fun s => ?_⟩
  · obtain ⟨t, ht, harch, hseq⟩ := exec_final_arch s
    obtain ⟨u, hrun, hrsp, harch', -, -⟩ := runAll_wbytes_final_of_initial m hseq harch hm
    exact ⟨t, u, ht, hrun, hrsp, harch'⟩
  · obtain ⟨t, ht, harch, -⟩ := exec_final_arch s
    obtain ⟨u, hfinal, hrsp, -⟩ := exec_final_of_holds (State.holds_nil_of_arch_eq_initial harch)
    exact ⟨t, u, ht, hfinal, hrsp⟩

/-- Settles O24, by whether the length field still fits the block. -/
theorem paddingLengths : Obligations.PaddingLengths := by
  unfold Obligations.PaddingLengths
  intro n l hn
  rw [pad_length]
  obtain h | h : n ≤ 55 ∨ 56 ≤ n := by omega
  · rw [padFillCount_of_le h]
    omega
  · rw [padFillCount_of_ge h hn]
    omega

end Sys2Proof.Machine
end

-- ==== The schedule of the block ====
section
/-! LOADW and EXPAND fill the schedule registers with the schedule of the block in the buffer, word by word
(43_compression.md R124 to R126). -/

namespace Sys2Proof.Machine

theorem scheduleOf_low (blk : Block) (i : Nat) (h : i < 16) : (scheduleOf blk)[i] = messageWord blk i h := by
  rw [scheduleOf, expandW_low _ i h, loadWords_low _ _ i h]

theorem scheduleOf_high (blk : Block) (j : Nat) (h : 16 ≤ j ∧ j < 68) :
    (scheduleOf blk)[j] = expandWord (scheduleOf blk) j h := expandW_high _ j h

theorem State.expand_loadw_eq (s : State) :
    s.loadw.expand = { s with w := scheduleOf s.buf, w' := deriveW' (scheduleOf s.buf) } := by
  simp only [State.expand, State.loadw, expandW_loadWords]

end Sys2Proof.Machine
end

-- ==== The sliding window ====
section
/-! The sixteen words the on-the-fly form holds are a stretch of the schedule: `W[0..15]` up to round 12, `W[j-12..j+3]`
before round `j` from there on (43_compression.md R134). With natural subtraction `j - 12` is where it starts in both cases. -/

namespace Sys2Proof.Machine

/-- `W[i..i+15]`. -/
def windowAt (w : Schedule) (i : Nat) (h : i ≤ 52) : Vector Word 16 := Vector.ofFn fun k : Fin 16 => w[i + k.val]

@[simp] theorem windowAt_getElem (w : Schedule) (i : Nat) (h : i ≤ 52) (k : Nat) (hk : k < 16) :
    (windowAt w i h)[k] = w[i + k] := by
  simp [windowAt]

/-- The word made on the fly is the schedule's next one (R125). -/
theorem windowNext_windowAt (blk : Block) (i : Nat) (h : i < 52) :
    windowNext (windowAt (scheduleOf blk) i (by omega)) = (scheduleOf blk)[i + 16] := by
  rw [scheduleOf_high blk (i + 16) (by omega)]
  simp [windowNext, expandWord]

theorem windowShift_windowAt (w : Schedule) (i : Nat) (h : i < 52) :
    windowShift (windowAt w i (by omega)) w[i + 16] = windowAt w (i + 1) h := by
  refine Vector.ext fun k hk => ?_
  by_cases hlast : k < 15
  · simp [windowShift, hlast, Nat.add_comm 1, Nat.add_assoc]
  · obtain rfl : k = 15 := by omega
    simp [windowShift, Nat.add_assoc]

/-- A round whose window is the schedule's reads the words of the schedule and moves the window on. -/
theorem windowRound_windowAt (blk : Block) (r : WorkRegs) (j : Nat) (h : j < 64) :
    windowRound { win := windowAt (scheduleOf blk) (j - 12) (by omega), work := r } j =
      { win := windowAt (scheduleOf blk) (j + 1 - 12) (by omega)
        work := roundShift r
          (roundMix r (BitVec.ofNat 6 j) (scheduleOf blk)[j] (deriveW' (scheduleOf blk))[j]) } := by
  rw [deriveW'_getElem _ j h]
  by_cases hj : j < 12
  · have h0 : j - 12 = 0 := by omega
    have h1 : j + 1 - 12 = 0 := by omega
    simp [windowRound, hj, h0, h1]
  · obtain ⟨i, rfl⟩ : ∃ i, j = i + 12 := ⟨j - 12, by omega⟩
    have h1 : i + 12 + 1 - 12 = i + 1 := by omega
    simp [windowRound, h1, windowNext_windowAt blk i (by omega), windowShift_windowAt _ i (by omega)]

/-- After `n` rounds the window stands at the schedule's word `n - 12`, and `A` to `H` are those of the full expansion. -/
theorem windowRounds_eq (v : HashValue) (blk : Block) (n : Nat) (h : n ≤ 64) : windowRounds v blk n =
    { win := windowAt (scheduleOf blk) (n - 12) (by omega)
      work := workAfter v (scheduleOf blk) (deriveW' (scheduleOf blk)) n h } := by
  induction n with
  | zero =>
    have hwin : (Vector.ofFn fun k : Fin 16 => messageWord blk k.val k.isLt) = windowAt (scheduleOf blk) 0 (by omega) :=
      Vector.ext fun k hk => by simp [scheduleOf_low blk k hk]
    rw [windowRounds, hwin]
    rfl
  | succ n ih =>
    rw [windowRounds, ih (by omega), windowRound_windowAt blk _ n h]
    rfl

end Sys2Proof.Machine
end

-- ==== COMPRESS as its steps ====
section
/-! The rounds of COMPRESS as an iteration, its feed-forward read off the registers it leaves, and a state as its registers
and its phase (43_compression.md R123, R130 to R132). -/

namespace Sys2Proof.Machine.State

theorem rounds_eq_iterate (n : Nat) (s : State) :
    State.rounds n s = ((fun t : State => t.round.nextRound)^[n] s).round := by
  induction n generalizing s with
  | zero => rfl
  | succ n ih => rw [State.rounds, ih, Function.iterate_succ_apply]

theorem compress_v_eq_feedForward (s : State) : s.compress.v = feedForward s.v s.compress.work :=
  s.compress_v.trans (congrArg (feedForward s.v) s.compress_work.symm)

theorem goto_of_seq_eq {s : State} {p : Phase} (h : s.seq = p) : s.goto p = s := by
  rw [← h]
  rfl

end Sys2Proof.Machine.State
end

-- ==== The obligations on the compression function (43_compression.md) ====
section
namespace Sys2Proof.Machine

/-- Settles O30: LOADW and EXPAND leave the schedule of the block, which is given by its first words and the recurrence. -/
theorem scheduleWords : Obligations.ScheduleWords := by
  unfold Obligations.ScheduleWords
  intro s
  rw [s.expand_loadw_eq]
  refine ⟨fun i h => ?_, scheduleOf_high s.buf, deriveW'_getElem _, rfl⟩
  rw [scheduleOf_low s.buf i h, messageWord_eq s.buf i h]
  rfl

/-- Settles O31: the four intermediates are those of the round's mixer. -/
theorem roundEffect : Obligations.RoundEffect := by
  unfold Obligations.RoundEffect
  intro s _
  exact ⟨_, _, _, _, rfl, rfl, rfl, rfl, s.round_eq⟩

/-- Settles O32, from what COMPRESS leaves in each register as a function of `V` and `BUF`. -/
theorem compressIsAFunctionOfVAndBlock : Obligations.CompressIsAFunctionOfVAndBlock := by
  unfold Obligations.CompressIsAFunctionOfVAndBlock
  refine ⟨fun s => rfl, fun s => congrArg State.feedfwd (State.rounds_eq_iterate 63 s.loadw.expand.initWork),
    fun s => ⟨s.compress_v, s.compress_v_eq_feedForward, by simp⟩, fun s t hv hbuf => ?_⟩
  simp only [State.compress_v, State.compress_w, State.compress_w', State.compress_work, State.compress_mix,
    State.compress_j, hv, hbuf, and_self]

/-- Settles O33: the window holds the schedule's words when the rounds read them. -/
theorem slidingWindowComputesCF : Obligations.SlidingWindowComputesCF := by
  unfold Obligations.SlidingWindowComputesCF
  intro v blk
  rw [CFWindow, windowRounds_eq v blk 64 (Nat.le_refl 64), CF]

/-- Settles O34: a state in `C_LOAD` begins the run of the `C_` rows. -/
theorem compressTakes67MicroSteps : Obligations.CompressTakes67MicroSteps := by
  unfold Obligations.CompressTakes67MicroSteps
  intro s caller hseq
  have hrun := s.runs_compress caller
  rw [State.goto_of_seq_eq hseq] at hrun
  exact hrun

end Sys2Proof.Machine
end

-- ==== What a command and a step are refused for ====
section
/-! A command and a step answer a next state or one of the two refusals, and never a fault (60_exceptions.md R143, R144,
R151). -/

namespace Sys2Proof.Machine

/-- The length domain is left only under the policy `refuse`, by a write that takes `LEN` to 2^61 (10_state.md R19). -/
theorem State.lengthInDomain_eq_false_iff (s : State) (n : Nat) :
    s.lengthInDomain n = false ↔ s.policy = .refuse ∧ 2 ^ 61 ≤ s.len.toNat + n := by
  rw [← Bool.not_eq_true, lengthInDomain_iff, Classical.not_imp, Nat.not_lt]

/-- A command that does not run is a WBYTE outside the length domain. -/
theorem exec_cases (i : Instr) (s : State) : (∃ t, exec i s = .next t) ∨
    ∃ b, i = .wbyte b ∧ s.lengthInDomain 1 = false ∧ exec i s = .refused .lengthOverflow := by
  cases i with
  | reset => exact .inl ⟨_, exec_reset s⟩
  | final => exact .inl ⟨_, exec_final s⟩
  | wbyte b =>
    cases hd : s.lengthInDomain 1 with
    | true => exact .inl ⟨_, exec_wbyte_in b s hd⟩
    | false => exact .inr ⟨b, rfl, rfl, exec_wbyte_out b s hd⟩

/-- A step in IDLE with a beat at the head runs its command, or is refused for the beat or for the length. -/
theorem step_beat_cases {s : State} {c : Beat} {cs : List Beat} (hi : s.seq = .idle) (hc : s.cmd = c :: cs) :
    (∃ t, step s = .next t) ∨
    (decode c = .error (.reserved c) ∧ step s = .refused (.reservedBeat c)) ∨
    ∃ b, decode c = .ok (.wbyte b) ∧ s.lengthInDomain 1 = false ∧ step s = .refused .lengthOverflow := by
  cases hd : decode c with
  | error e =>
    obtain rfl := eq_reserved_of_decode_eq_error hd
    exact .inr (.inl ⟨rfl, step_reserved s c c cs hi hc hd⟩)
  | ok i =>
    rw [step_command s c cs i hi hc hd]
    obtain hnext | ⟨b, rfl, hdom, hexec⟩ := exec_cases i s.dropBeat
    · exact .inl hnext
    · exact .inr (.inr ⟨b, rfl, hdom, hexec⟩)

/-- Every step answers a next state, or is refused for the beat at the head or for the length. -/
theorem step_cases (s : State) : (∃ t, step s = .next t) ∨
    s.seq = .idle ∧ ∃ c cs, s.cmd = c :: cs ∧
      ((decode c = .error (.reserved c) ∧ step s = .refused (.reservedBeat c)) ∨
       ∃ b, decode c = .ok (.wbyte b) ∧ s.lengthInDomain 1 = false ∧ step s = .refused .lengthOverflow) := by
  by_cases hi : s.seq = .idle
  · cases hc : s.cmd with
    | nil => exact .inl ⟨s, step_waiting s hi hc⟩
    | cons c cs => exact (step_beat_cases hi hc).imp_right fun hr => ⟨hi, c, cs, rfl, hr⟩
  · exact .inl ⟨s.micro, step_busy s hi⟩

theorem exec_ne_fault (i : Instr) (s : State) (r : Fault) : exec i s ≠ .fault r := by
  obtain ⟨t, h⟩ | ⟨b, -, -, h⟩ := exec_cases i s <;> rw [h] <;> nofun

theorem step_ne_fault (s : State) (r : Fault) : step s ≠ .fault r := by
  obtain ⟨t, h⟩ | ⟨-, c, cs, -, ⟨-, h⟩ | ⟨b, -, -, h⟩⟩ := step_cases s <;> rw [h] <;> nofun

/-- A WBYTE at the head that leaves the length domain is refused (10_state.md R19). -/
theorem step_wbyte_out {s : State} {c : Beat} {cs : List Beat} {b : Byte} (hi : s.seq = .idle) (hc : s.cmd = c :: cs)
    (hd : decode c = .ok (.wbyte b)) (hdom : s.lengthInDomain 1 = false) : step s = .refused .lengthOverflow :=
  (step_command s c cs _ hi hc hd).trans (exec_wbyte_out b s.dropBeat hdom)

end Sys2Proof.Machine
end

-- ==== An interleaving and its instances ====
section
/-! The moves of several instances, interleaved, as a fold over the schedule: each instance folds over its own moves
(60_exceptions.md R153). Commands and events are two cases of it. -/

namespace Sys2Proof.Machine

theorem andThen_assoc {α β γ : Type} (o : Host.Outcome α Fault Refusal) (f : α → Host.Outcome β Fault Refusal)
    (g : β → Host.Outcome γ Fault Refusal) : andThen (andThen o f) g = andThen o fun a => andThen (f a) g := by
  cases o <;> rfl

/-- What an instance reaches by its moves in their order; `move` gives each of them its meaning. -/
def movesFrom {α : Type} (move : α → State → Host.Outcome State Fault Refusal) :
    Host.Outcome State Fault Refusal → List α → Host.Outcome State Fault Refusal :=
  List.foldl fun o a => andThen o (move a)

/-- What a system reaches by the moves of its instances, interleaved. -/
def System.moves {α : Type} {n : Nat} (move : α → State → Host.Outcome State Fault Refusal) :
    System n → List (Fin n × α) → System n :=
  List.foldl fun sys p => sys.act p.1 (move p.2)

/-- Each instance folds over its own moves: a move of another instance leaves it where it is. -/
theorem System.moves_getElem {α : Type} {n : Nat} (move : α → State → Host.Outcome State Fault Refusal) (sys : System n)
    (sched : List (Fin n × α)) (k : Fin n) : (sys.moves move sched)[k.val] = movesFrom move sys[k.val] (own k sched) := by
  induction sched generalizing sys with
  | nil => rfl
  | cons p rest ih =>
    obtain ⟨k', a⟩ := p
    refine (ih (sys.act k' (move a))).trans ?_
    by_cases h : k' = k
    · rw [h, System.act_self, own_cons_self]
      rfl
    · rw [System.act_other _ _ _ _ h, own_cons_other _ _ _ _ h]

theorem System.run_eq_moves {n : Nat} (sys : System n) (sched : List (Fin n × Instr)) :
    sys.run sched = sys.moves exec sched := by
  induction sched generalizing sys with
  | nil => rfl
  | cons p rest ih => exact ih _

theorem System.runEvents_eq_moves {n : Nat} (sys : System n) (sched : List (Fin n × Event)) :
    sys.runEvents sched = sys.moves (fun e s => s.event e) sched := by
  induction sched generalizing sys with
  | nil => rfl
  | cons p rest ih => exact ih _

theorem andThen_runAll (o : Host.Outcome State Fault Refusal) (is : List Instr) :
    andThen o (runAll is) = movesFrom exec o is := by
  induction is generalizing o with
  | nil => exact andThen_next o
  | cons i is ih => exact (andThen_assoc o (exec i) (runAll is)).symm.trans (ih _)

theorem andThen_runEvents (o : Host.Outcome State Fault Refusal) (es : List Event) :
    andThen o (runEvents es) = movesFrom (fun e s => s.event e) o es := by
  induction es generalizing o with
  | nil => exact andThen_next o
  | cons e es ih => exact (andThen_assoc o (fun s => s.event e) (runEvents es)).symm.trans (ih _)

/-- The number of the core is no part of the architectural state (10_state.md R20). -/
@[simp] theorem State.asCore_arch (s : State) (k : Nat) : (s.asCore k).arch = s.arch := rfl

theorem System.powerOn_getElem (c : Config) (k : Fin c.nInstances) :
    (System.powerOn c)[k.val] = .next ((State.powerOn c).asCore k.val) :=
  Vector.getElem_ofFn k.isLt

end Sys2Proof.Machine
end

-- ==== The obligations on exceptions and instances (60_exceptions.md) ====
section
namespace Sys2Proof.Machine

/-- Settles O7: it is the waiting case of a step. -/
theorem idleCoreWaits : Obligations.IdleCoreWaits := by
  unfold Obligations.IdleCoreWaits
  exact step_waiting

/-- Settles O8: the cases of a step name both refusals, and each of the two situations leads to its own. -/
theorem onlyTwoRefusalsAndNoFault : Obligations.OnlyTwoRefusalsAndNoFault := by
  unfold Obligations.OnlyTwoRefusalsAndNoFault
  refine ⟨step_ne_fault, exec_ne_fault, fun s r => ⟨fun hr => ?_, ?_⟩⟩
  · obtain ⟨t, h⟩ | ⟨hi, c, cs, hc, ⟨hd, h⟩ | ⟨b, hd, hdom, h⟩⟩ := step_cases s
    · cases hr.symm.trans h
    · cases hr.symm.trans h
      exact ⟨hi, c, cs, hc, .inl ⟨hd, rfl⟩⟩
    · cases hr.symm.trans h
      obtain ⟨hp, hlen⟩ := (s.lengthInDomain_eq_false_iff 1).mp hdom
      exact ⟨hi, c, cs, hc, .inr ⟨b, hd, hp, hlen, rfl⟩⟩
  · rintro ⟨hi, c, cs, hc, ⟨hd, rfl⟩ | ⟨b, hd, hp, hlen, rfl⟩⟩
    · exact step_reserved s c c cs hi hc hd
    · exact step_wbyte_out hi hc hd (State.lengthInDomain_eq_false hp hlen)

/-- Settles O49: interleaved commands and interleaved events are moves, which each instance folds over on its own. -/
theorem instancesAreIndependent : Obligations.InstancesAreIndependent := by
  unfold Obligations.InstancesAreIndependent
  refine ⟨fun n sys sched k => ?_, fun n sys sched k => ?_, fun c k => ?_⟩
  · rw [System.run_eq_moves, System.moves_getElem, andThen_runAll]
  · rw [System.runEvents_eq_moves, System.moves_getElem, andThen_runEvents]
  · have harch := (State.asCore_arch (State.powerOn c) k.val).trans (State.powerOn_arch c)
    exact ⟨_, System.powerOn_getElem c k, harch, rfl, rfl, rfl, rfl⟩

end Sys2Proof.Machine
end

-- ==== The obligations on reset (70_reset_and_hazards.md) ====
section
namespace Sys2Proof.Machine

/-- RESET leaves the reset state, whatever it found. -/
theorem exec_reset_arch (s : State) : ∃ t, exec .reset s = .next t ∧ t.arch = ArchState.initial ∧ t.seq = .idle :=
  ⟨_, exec_reset s, s.toInitial_arch, rfl⟩

/-- Settles O11: each register is read off the power-on state, in which the configuration chooses the policy alone. -/
theorem powerOnState : Obligations.PowerOnState := by
  unfold Obligations.PowerOnState
  exact ⟨fun _ => ⟨rfl, rfl, rfl, rfl, rfl, rfl⟩, rfl⟩

/-- Settles O13: each of the three leaves the initial architectural state. -/
theorem threeResetsOneState : Obligations.ThreeResetsOneState := by
  unfold Obligations.ThreeResetsOneState
  intro c s
  rw [State.powerOn_arch]
  exact ⟨rfl, rfl, exec_reset_arch s, exec_final_arch s⟩

end Sys2Proof.Machine
end
